-- ==== Sys2Proof/Word.lean ====
section
/-! DEFINITION. The bit-vector types of the block: the widths of spec/00_scope.md R9 (`WORD_BITS` 8, `SYMBOL_BITS` 10)
and of the request word of spec/30_encoding.md R42 (12). Bit `i` of a value has weight `2^i` (R10). -/

namespace Sys2Proof

/-- A data word: 8 bits, bit 0 the first transmitted bit (R28, R38). -/
abbrev Word := BitVec 8

/-- A candidate: 8 bits, alive only inside one ENC step (R39). -/
abbrev Candidate := BitVec 8

/-- A symbol: 10 bits, `INV` at bit 9, `SEL` at bit 8, the data bits at 7 to 0 (R40). -/
abbrev Symbol := BitVec 10

/-- A request word: 12 bits, the operation at bits 11 and 10 (R42). -/
abbrev RequestWord := BitVec 12

end Sys2Proof
end

