-- ==== Sys2Proof/Config.lean ====
section
/-! DEFINITION. The implementation parameters of spec/00_scope.md R9: the fixed ones as constants, the two OPEN ones as
the fields of `Config`. The spec leaves no value free (93_implementation_defined.md section 1), so there is no opaque constant. -/

namespace Sys2Proof

/-- `XNOR_MASK`: the bits complemented to form the XNOR candidate, bits 1 to 7 (R9, R55). -/
def xnorMask : Candidate := 0xFE#8

/-- `TAIL_THRESHOLD`: the XNOR chain is chosen from this count of ones in `word[7:1]` on (R9, R57). -/
def tailThreshold : Nat := 4

/-- `BIAS_RESET`: RunningBias after reset and at creation (R9, R19). -/
def biasReset : Int := 0

/-- The OPEN parameters (R9): `biasWidth` is `BIAS_WIDTH`, `none` standing for the unbounded register;
`numChannels` is `NUM_CHANNELS`. -/
structure Config where
  biasWidth   : Option Nat
  numChannels : Nat
  deriving DecidableEq, Repr

/-- A choice of parameters that R9 admits: at least one channel, and a finite width has at least one bit.
DESIGN CHOICE (safe, log 12): the spec does not say what a register of width 0 is. -/
def Config.wf (p : Config) : Bool := decide (1 ≤ p.numChannels) && decide (p.biasWidth ≠ some 0)

/-- The parameters of `State.reset`: `BIAS_WIDTH = ∞`, the spec's default (R9), and three channels.
DESIGN CHOICE (unsafe, log 1): the spec gives no default for `NUM_CHANNELS`, only "typically three or four". -/
def Config.standard : Config := { biasWidth := none, numChannels := 3 }

end Sys2Proof
end

