-- ==== Sys2Proof/Syntax.lean ====
section
/-! DEFINITION. What a host can ask of the block: the operations (spec/opcode_table.json, 42_encoder.md R75 and R79,
43_decoder.md R82), the request (30_encoding.md R42) and the reason a request is refused (60_exceptions.md R90). -/

namespace Sys2Proof

/-- The operations, one constructor a row of spec/opcode_table.json (R81: there are no others). The number `ch` is the
instance the request is addressed to, carried beside the request word (R42); DEC is addressed to no instance (R87). -/
inductive Instr where
  | enc (ch : Nat) (word : Word)   -- ENC: encodeNext(word), R75
  | dec (symbol : Symbol)          -- DEC: decode(symbol), R82
  | rst (ch : Nat)                 -- RST: reset(), R79
  deriving DecidableEq, Repr

/-- A request: a 12-bit word together with the number of the instance it is addressed to (R42). -/
structure Request where
  ch   : Nat
  word : RequestWord
  deriving DecidableEq, Repr

/-- Why a request has no meaning (R90). The decoder raises it. Safe: a refused request changes nothing but the refusal mark. -/
inductive RefusalReason where
  | reservedRequest   -- RESERVED_REQUEST
  deriving DecidableEq, Repr

end Sys2Proof
end

