-- ==== Sys2Proof/WellFormed.lean ====
section
/-! DEFINITION. Which operations a machine of `n` channels can be asked for (spec/30_encoding.md R42): the operand widths
are carried by the types, so the only check left is the instance number. -/

namespace Sys2Proof

/-- R42: the instance is a number in `0 .. n - 1`. DEC addresses no instance (R87), so every DEC is well formed (R41). -/
def Instr.wf (n : Nat) : Instr → Bool
  | .enc ch _ => decide (ch < n)
  | .dec _ => true
  | .rst ch => decide (ch < n)

/-- R42: a request carries the number of an instance that exists. -/
def Request.wf (n : Nat) (q : Request) : Bool := decide (q.ch < n)

end Sys2Proof
end

