-- ==== Sys2Proof/Decode.lean ====
section
/-! DEFINITION. Reading and writing request words (spec/30_encoding.md R42 to R46): the three rows of R43, the decoder,
total on every request and refusing by name, then the encoder. -/

namespace Sys2Proof

/-- A row of R43's table: a request word `r` selects the row's operation when `r & mask = pattern`. -/
structure Row where
  mask    : RequestWord
  pattern : RequestWord
  deriving DecidableEq, Repr

/-- R43, ENC: `0000wwwwwwww`. -/
def encRow : Row := { mask := 0xF00#12, pattern := 0x000#12 }

/-- R43, DEC: `01ssssssssss`. -/
def decRow : Row := { mask := 0xC00#12, pattern := 0x400#12 }

/-- R43, RST: `100000000000`. -/
def rstRow : Row := { mask := 0xFFF#12, pattern := 0x800#12 }

/-- R43: "A request `r` selects an operation when `(r & mask) == match`." -/
def Row.selects (row : Row) (r : RequestWord) : Bool := (r &&& row.mask) == row.pattern

/-- The operation field `OP = r[11:10]` (R42). -/
def opField (r : RequestWord) : BitVec 2 := r.extractLsb' 10 2

/-- ENC's operand `WORD = r[7:0]`, taken unchanged (R44). -/
def wordField (r : RequestWord) : Word := r.extractLsb' 0 8

/-- DEC's operand `SYMBOL = r[9:0]`, taken unchanged (R44). -/
def symbolField (r : RequestWord) : Symbol := r.extractLsb' 0 10

/-- R45: a request word is reserved when OP is 11, or OP is 00 and `r[9:8]` is not 00, or OP is 10 and `r[9:0]` is not 0.
The decoder does not call it: it is R45's own wording, to hold the decoder against. -/
def isReserved (r : RequestWord) : Bool :=
  (opField r == 3#2)
    || (opField r == 0#2 && r.extractLsb' 8 2 != 0#2)
    || (opField r == 2#2 && symbolField r != 0#10)

/-- The operation a request selects (R43), or its refusal (R45, R90). -/
def decode (q : Request) : Except RefusalReason Instr :=
  if encRow.selects q.word then .ok (.enc q.ch (wordField q.word))
  else if decRow.selects q.word then .ok (.dec (symbolField q.word))
  else if rstRow.selects q.word then .ok (.rst q.ch)
  else .error .reservedRequest

/-- The request word of an operation (R43). -/
def encodeWord : Instr → RequestWord
  | .enc _ w => 0b0000#4 ++ w
  | .dec s => 0b01#2 ++ s
  | .rst _ => 0b100000000000#12

/-- The instance number beside the request word. DESIGN CHOICE (safe, log 17): DEC's, which has no effect (R47), is 0. -/
def Instr.channel : Instr → Nat
  | .enc ch _ => ch
  | .dec _ => 0
  | .rst ch => ch

/-- The request of an operation: its word and the instance it is addressed to (R42, R43). -/
def encode (i : Instr) : Request := { ch := i.channel, word := encodeWord i }

/-- The request to instance 0 whose word has the bits `w`, of which the table gives `nbits`; bits above are 0. A value that
needs more than 12 bits is no request (R46; log 18). -/
def tableRequest (nbits w : Nat) : Option Request :=
  let bits := w % 2 ^ nbits
  if bits < 2 ^ 12 then some { ch := 0, word := BitVec.ofNat 12 bits } else none

/-- What the decoder reads from the word with bits `w`, addressed to instance 0; `none` where it refuses. -/
def decodeTableWord (nbits w : Nat) : Option Instr :=
  match tableRequest nbits w with
  | some q => (decode q).toOption
  | none => none

end Sys2Proof
end

