-- ==== Sys2Proof/Machine/State.lean ====
section
/-! DEFINITION. The whole state of the machine as plain data: the encoder instances (spec/10_state.md R16 to R22,
60_exceptions.md R97), the traces and marks (R17, R90), the parameters (00_scope.md R9) and the hosts' stream (log 2).
There is no memory (20_memory.md R26) and no other register (10_state.md R23). -/

namespace Sys2Proof.Machine

open Sys2Proof

/-- The fault kinds of R89, with what R89 records. A fault is a MARK in the faulted instance's state, and the machine goes
on without that instance (R92), so no step answers `Host.Outcome.fault` (log 4). -/
inductive Fault where
  /-- `BIAS_OVERFLOW`. Raised by ENC when the width is finite and the exact new bias does not fit (R76). Safe: a real
  register would hold some value, and the model picks none (D4). -/
  | biasOverflow (request : RequestWord) (ch : Nat) (biasBefore newBias : Int)
  /-- `CONCURRENT_ACCESS`. Raised by ENC and RST when their instance's request slot is still occupied (R91). Safe: the
  source calls the outcome undefined (D8). -/
  | concurrentAccess (held arriving : RequestWord) (ch : Nat)
  deriving DecidableEq, Repr

/-- Why a step has no meaning at all. (A RESERVED request is not one of these: it sets the refusal mark, R90.) -/
inductive Refusal where
  /-- Raised by exec's arm of an instruction that has no meaning yet; no arm is left so. Safe. -/
  | notModelled (mnemonic : String)
  /-- Raised when ENC, RST or an instance's turn names an instance that does not exist: R42 gives `0 .. NUM_CHANNELS-1`.
  DESIGN CHOICE, safe (log 8). -/
  | noSuchChannel (ch : Nat)
  deriving DecidableEq, Repr

/-- What a request slot can hold: an ENC or an RST, the operations addressed to an instance (R91; DEC has no slot, R87). -/
inductive SlotRequest where
  | enc (word : Word)
  | rst
  deriving DecidableEq, Repr

/-- One encoder instance (R97): RunningBias (R16, R18), the fault mark and the output trace, oldest symbol first (R17),
and the request slot (R91). -/
structure Channel where
  rb    : Int
  fault : Option Fault
  out   : List Symbol
  slot  : Option SlotRequest
  deriving DecidableEq, Repr

/-- One move of the hosts or of an instance (DEDUCED, log 3). `issue`: a host issues a request and it is checked and
performed in one atomic step (R8, R94). `place`: a host puts a request in the instance's slot, where it stays (R91).
`serve`: the instance takes the request in its slot and performs it (R91). -/
inductive Turn where
  | issue (q : Request)
  | place (q : Request)
  | serve (ch : Nat)
  deriving DecidableEq, Repr

/-- The machine. `biasWidth` is `BIAS_WIDTH` (R9; `none` is ∞); `channels` are the instances, number 0 first, so that
`NUM_CHANNELS` is its length (R97); `dout` is the decoder's trace, oldest word first (R17); `refusalMark` is the global
refusal mark with its reason (R90); `turns` are the moves still to come, the next one first (log 2). -/
structure State where
  biasWidth   : Option Nat
  channels    : List Channel
  dout        : List Word
  refusalMark : Option RefusalReason
  turns       : List Turn
  deriving DecidableEq, Repr

/-- An instance right after its creation (R19, R99). -/
def Channel.created : Channel := { rb := biasReset, fault := none, out := [], slot := none }

/-- The machine of parameters `p` right after creation (R97, R99): every instance newly created, nothing emitted, the
refusal mark clear, and no request issued yet. -/
def State.create (p : Config) : State :=
  { biasWidth := p.biasWidth
    channels := List.replicate p.numChannels Channel.created
    dout := []
    refusalMark := none
    turns := [] }

/-- The machine right after reset, with the parameters of log 1. -/
def State.reset : State := State.create Config.standard

end Sys2Proof.Machine
end

