-- ==== Sys2Proof/Machine/BitOps.lean ====
section
/-! DEFINITION. BitOps (spec/40_bitops_candidates.md R49 to R51), at every width, by the loops the spec writes; and the
assembling of an 8-bit value from its bits, bit 0 first (20_memory.md R28). -/

namespace Sys2Proof.Machine

open Sys2Proof

/-- The loop of R49 over the bits `0 .. k - 1`. -/
def onesBelow {n : Nat} (v : BitVec n) : Nat → Nat
  | 0 => 0
  | k + 1 => onesBelow v k + (v.getLsbD k).toNat

/-- `countOnes(v, n)`, the number of set bits (R49). -/
def countOnes {n : Nat} (v : BitVec n) : Nat := onesBelow v n

/-- The loop of R50 over the pairs `(0, 1) .. (k - 1, k)`. -/
def transitionsBelow {n : Nat} (v : BitVec n) : Nat → Nat
  | 0 => 0
  | k + 1 => transitionsBelow v k + (v.getLsbD k ^^ v.getLsbD (k + 1)).toNat

/-- `countTransitions(v, n)`, the number of neighbouring bits that differ, over `n - 1` comparisons (R50). -/
def countTransitions {n : Nat} (v : BitVec n) : Nat := transitionsBelow v (n - 1)

/-- `bitBias(v, n)`, +1 for each set bit and -1 for each unset bit (R51). -/
def bitBias {n : Nat} (v : BitVec n) : Int := (countOnes v : Int) - ((n : Int) - (countOnes v : Int))

/-- The 8-bit value whose bit `i` is `f i`. -/
def byteOfBits (f : Nat → Bool) : BitVec 8 :=
  BitVec.ofBool (f 7) ++ BitVec.ofBool (f 6) ++ BitVec.ofBool (f 5) ++ BitVec.ofBool (f 4)
    ++ BitVec.ofBool (f 3) ++ BitVec.ofBool (f 2) ++ BitVec.ofBool (f 1) ++ BitVec.ofBool (f 0)

end Sys2Proof.Machine
end

