-- ==== Sys2Proof/Machine/Operands.lean ====
section
/-! DEFINITION. The data formats the operations read and write: the symbol's fields and its assembly (spec/30_encoding.md
R40, 41_dc_balancer.md R66), and what a slot's request is as an operation (60_exceptions.md R91). The operands are taken
from the request word unchanged, in Sys2Proof/Decode.lean (R44). -/

namespace Sys2Proof.Machine

open Sys2Proof

/-- The data bits `D = s[7:0]` (R40). -/
def symbolData (s : Symbol) : BitVec 8 := s.extractLsb' 0 8

/-- The selector bit `SEL = s[8]`: true where the XOR-chain candidate was used (R40). -/
def symbolSelector (s : Symbol) : Bool := s.getLsbD 8

/-- The invert flag `INV = s[9]`: true where the data bits were inverted (R40). -/
def symbolInvert (s : Symbol) : Bool := s.getLsbD 9

/-- `{inv, sel, d}`: bit 9, bit 8, bits 7 to 0 (R12, R40). -/
def makeSymbol (inv sel : Bool) (d : BitVec 8) : Symbol := BitVec.ofBool inv ++ BitVec.ofBool sel ++ d

/-- `v ^ 0xFF` where `inv` is true, `v` where it is not (R66, R82). -/
def invertIf (inv : Bool) (v : BitVec 8) : BitVec 8 := if inv then v ^^^ 0xFF#8 else v

/-- The operation a slot's request is, for the instance `ch`. -/
def SlotRequest.instr (ch : Nat) : SlotRequest → Instr
  | .enc w => .enc ch w
  | .rst => .rst ch

/-- The request word of a slot's request: the instance stands beside the word (R42), so the number given here does not show. -/
def SlotRequest.requestWord (op : SlotRequest) : RequestWord := encodeWord (op.instr 0)

end Sys2Proof.Machine
end

