-- ==== Sys2Proof/Machine/Flags.lean ====
section
/-! DEFINITION. The two control bits of a symbol, the only flags the block computes (spec/10_state.md R23: they are fields of
the emitted symbol and are not stored): CandidateGenerator and the selector rules (40_bitops_candidates.md R53 to R61), and
the invert flag's two branches (41_dc_balancer.md R64 and R65). -/

namespace Sys2Proof.Machine

open Sys2Proof

/-- Bit `n` of the XOR chain: `c[0] = w[0]`, `c[n] = c[n-1] ^ w[n]` (R53). -/
def chainBit (w : Word) : Nat → Bool
  | 0 => w.getLsbD 0
  | n + 1 => chainBit w n ^^ w.getLsbD (n + 1)

/-- The XOR-chain candidate (R53). -/
def xorChain (w : Word) : Candidate := byteOfBits (chainBit w)

/-- The inverse of the XOR chain, `(c ^ (c << 1))[7:0]` (R54). -/
def unchain (c : Candidate) : Word := c ^^^ (c <<< 1)

/-- The XNOR-chain candidate: the XOR chain with bits 1 to 7 complemented and bit 0 kept (R55). It is not DVI's (C1). -/
def xnorCandidate (w : Word) : Candidate := xorChain w ^^^ xnorMask

/-- The ones among `word[1..7]` (R56). -/
def tailOnes (w : Word) : Nat := countOnes (w.extractLsb' 1 7)

/-- The selection rule ENC uses (R57): false, the XNOR chain, when the tail has 4 ones or more. -/
def selectShortcut (w : Word) : Bool := !decide (tailThreshold ≤ tailOnes w)

/-- The direct transition-count rule (R58): an oracle; ENC does not use it. -/
def selectDirect (w : Word) : Bool :=
  !decide (countTransitions (xnorCandidate w) < countTransitions (xorChain w))

/-- The chosen candidate and its selector bit (R61). For 0xFD it is 0x55, as R53, R55 and T5 give it, where R62 and C2 say 0xAA
(DEDUCED, log 22). -/
def chooseCandidate (w : Word) : Candidate × Bool :=
  if selectShortcut w then (xorChain w, true) else (xnorCandidate w, false)

/-- The invert flag: `NOT sel` in the tie branch (R64); otherwise set exactly when the bias and the candidate's bias have
OPPOSITE signs (R65, C5; this is not DVI's rule). So a word whose candidate has bias 0 has one symbol, against R41's count
(DEDUCED, log 20). -/
def invertFlag (sel : Bool) (cb b : Int) : Bool :=
  if b = 0 ∨ cb = 0 then !sel
  else decide ((b < 0 ∧ 0 < cb) ∨ (0 < b ∧ cb < 0))

end Sys2Proof.Machine
end

