-- ==== Sys2Proof/Machine/DcBalancer.lean ====
section
/-! DEFINITION. DcBalancer (spec/41_dc_balancer.md R63 to R68) and the range check of a finite bias register
(42_encoder.md R76). Pure functions: ENC reads and writes the register. -/

namespace Sys2Proof.Machine

open Sys2Proof

/-- `balance(q, sel, b)`: the symbol and the next bias (R68). -/
def balance (q : Candidate) (sel : Bool) (b : Int) : Symbol × Int :=
  let inv := invertFlag sel (bitBias q) b
  let s := makeSymbol inv sel (invertIf inv q)
  (s, b + bitBias s)

/-- The symbol and the next bias of the word `w` at bias `b`: the selection, then the balance (R75). -/
def encodeStep (w : Word) (b : Int) : Symbol × Int :=
  balance (chooseCandidate w).1 (chooseCandidate w).2 b

/-- Whether a bias fits the register: always where `BIAS_WIDTH` is ∞, and in `-2^(W-1) .. 2^(W-1)-1` where it is `W` (R76). So
+16 does not fit 5 bits, against T10's fifth row (DEDUCED, log 21). -/
def biasFits (width : Option Nat) (b : Int) : Bool :=
  match width with
  | none => true
  | some w => decide (-((2 ^ (w - 1) : Nat) : Int) ≤ b) && decide (b < ((2 ^ (w - 1) : Nat) : Int))

end Sys2Proof.Machine
end

