-- ==== Sys2Proof/Machine/Ops.lean ====
section
/-! DEFINITION. The named operations over the state: the effect primitives of spec/00_scope.md R14 and 10_state.md R17
(emit, raise, refuse), the access to one instance, and `onChannel`, the one place where a request addressed to an instance is
checked and taken (60_exceptions.md R91, R92, R94). -/

namespace Sys2Proof.Machine

open Sys2Proof

/-- What a step can answer. -/
abbrev Answer := Host.Outcome State Fault Refusal

/-- `RB <- b` (R14). -/
def Channel.writeBias (b : Int) (c : Channel) : Channel := { c with rb := b }

/-- `emit Symbol(s)`: append to the instance's output trace (R14). -/
def Channel.emitSymbol (s : Symbol) (c : Channel) : Channel := { c with out := c.out ++ [s] }

/-- `raise Fault(kind)`: set the fault mark and nothing else (R14, R92). -/
def Channel.raiseFault (f : Fault) (c : Channel) : Channel := { c with fault := some f }

/-- What the request slot holds from now on (R91). -/
def Channel.fillSlot (op : Option SlotRequest) (c : Channel) : Channel := { c with slot := op }

/-- The instance of that number, if there is one (R97). -/
def State.channel? (s : State) (ch : Nat) : Option Channel := s.channels[ch]?

/-- The state with that instance replaced. Every other instance is kept (R21). -/
def State.setChannel (s : State) (ch : Nat) (c : Channel) : State := { s with channels := s.channels.set ch c }

/-- `emit Word(w)`: append to the decoder's output trace (R14). -/
def State.emitWord (s : State) (w : Word) : State := { s with dout := s.dout ++ [w] }

/-- `refuse(reason)`: set the global refusal mark and nothing else (R14, R90). -/
def State.refuse (s : State) (r : RefusalReason) : State := { s with refusalMark := some r }

/-- The moves still to come (log 2). -/
def State.withTurns (s : State) (ts : List Turn) : State := { s with turns := ts }

/-- A move that will be the next one (log 2). -/
def State.pushTurn (s : State) (t : Turn) : State := s.withTurns (t :: s.turns)

/-- The next move, and the state without it; `none` when the hosts have nothing more. -/
def State.popTurn (s : State) : Option (Turn × State) :=
  match s.turns with
  | [] => none
  | t :: rest => some (t, s.withTurns rest)

/-- A request of word `r` reaches the instance `ch`, which performs it as `perform` says. A faulted instance takes no step
(R92; the request is passed over, log 4); an occupied slot raises `CONCURRENT_ACCESS` and neither request is performed (R91);
a number no instance has is refused (log 8). -/
def onChannel (s : State) (ch : Nat) (r : RequestWord) (perform : Channel → Channel) : Answer :=
  match s.channel? ch with
  | none => .refused (.noSuchChannel ch)
  | some c =>
    match c.fault, c.slot with
    | some _, _ => .next s
    | none, some held => .next (s.setChannel ch (c.raiseFault (.concurrentAccess held.requestWord r ch)))
    | none, none => .next (s.setChannel ch (perform c))

end Sys2Proof.Machine
end

