-- ==== Sys2Proof/Machine/Decoder.lean ====
section
/-! DEFINITION. The Decoder's operation, DEC (spec/43_decoder.md R82). -/

namespace Sys2Proof.Machine

open Sys2Proof

/-- Bit `n` of the recovered word: `w[0] = c[0]`, `w[n] = c[n-1] ^ c[n]` (R82). -/
def recoveredBit (c : Candidate) : Nat → Bool
  | 0 => c.getLsbD 0
  | n + 1 => c.getLsbD n ^^ c.getLsbD (n + 1)

/-- `decode(symbol)` (R82): un-invert, go back to the XOR chain, recover the word. Every symbol decodes; no control-period
symbol is recognised (R86). -/
def decodeSymbol (s : Symbol) : Word :=
  let q := invertIf (symbolInvert s) (symbolData s)
  let c := if symbolSelector s then q else q ^^^ xnorMask
  byteOfBits (recoveredBit c)

/-- DEC: append the decoded word to `DOUT`; no instance is read or written (R82, R87). -/
def execDec (symbol : Symbol) (s : State) : Answer := .next (s.emitWord (decodeSymbol symbol))

end Sys2Proof.Machine
end

