-- ==== Sys2Proof/Machine/Encoder.lean ====
section
/-! DEFINITION. The Encoder's two operations, ENC and RST (spec/42_encoder.md R75, R76, R79). -/

namespace Sys2Proof.Machine

open Sys2Proof

/-- ENC's pseudocode on the instance it is addressed to (R75), with `checkBiasRange` (R76): a bias that does not fit raises
`BIAS_OVERFLOW`, and then neither `RB` nor `OUT` is written. -/
def encodeNext (width : Option Nat) (ch : Nat) (w : Word) (c : Channel) : Channel :=
  let b' := (encodeStep w c.rb).2
  if biasFits width b' then (c.writeBias b').emitSymbol (encodeStep w c.rb).1
  else c.raiseFault (.biasOverflow (encodeWord (.enc ch w)) ch c.rb b')

/-- ENC: encode the next word (R75). -/
def execEnc (ch : Nat) (w : Word) (s : State) : Answer :=
  onChannel s ch (encodeWord (.enc ch w)) (encodeNext s.biasWidth ch w)

/-- RST: channel reset (R79). -/
def execRst (ch : Nat) (s : State) : Answer :=
  onChannel s ch (encodeWord (.rst ch)) (Channel.writeBias biasReset)

end Sys2Proof.Machine
end

