-- ==== Sys2Proof/Machine/Dispatch.lean ====
section
/-! DEFINITION. One arm for each operation of spec/opcode_table.json. -/

namespace Sys2Proof.Machine

open Sys2Proof

def exec (i : Instr) (s : State) : Host.Outcome State Fault Refusal :=
  match i with
  | .enc ch word => Sys2Proof.Machine.execEnc ch word s
  | .dec symbol => Sys2Proof.Machine.execDec symbol s
  | .rst ch => Sys2Proof.Machine.execRst ch s

end Sys2Proof.Machine
end

