-- ==== Sys2Proof/Machine/Requests.lean ====
section
/-! DEFINITION. The moves around an operation (spec/60_exceptions.md R90, R91, R94; log 3): a request issued, a request placed
in a slot, and an instance serving its slot. -/

namespace Sys2Proof.Machine

open Sys2Proof

/-- A request arrives and is checked and performed in one atomic step, in R94's order: a reserved request is refused here,
before anything else, and the run goes on (log 7); the other checks are the operation's. -/
def issueRequest (q : Request) (s : State) : Answer :=
  match decode q with
  | .ok i => exec i s
  | .error r => .next (s.refuse r)

/-- A host puts a request in the slot of instance `ch`, where it waits (R91). A faulted instance is passed over (R92), and an
occupied slot faults. -/
def occupySlot (ch : Nat) (op : SlotRequest) (s : State) : Answer :=
  onChannel s ch op.requestWord (Channel.fillSlot (some op))

/-- A request arrives and is left in its instance's slot (R91), in R94's order. DEC has no slot and is performed at once
(R87, log 10). -/
def placeRequest (q : Request) (s : State) : Answer :=
  match decode q with
  | .ok (.enc ch w) => occupySlot ch (.enc w) s
  | .ok (.rst ch) => occupySlot ch .rst s
  | .ok (.dec symbol) => exec (.dec symbol) s
  | .error r => .next (s.refuse r)

/-- After the instance `ch` took `op` from its slot: if the step faulted it wrote nothing but the mark (R92), so the request
is still in the slot (log 5). -/
def keepIfFaulted (ch : Nat) (op : SlotRequest) (s : State) : State :=
  match s.channel? ch with
  | none => s
  | some c => if c.fault.isSome then s.setChannel ch (c.fillSlot (some op)) else s

/-- The instance `ch` takes the request in its slot and performs it (R91). With an empty slot it holds (R98), and faulted it
takes no step (R92). -/
def serveSlot (ch : Nat) (s : State) : Answer :=
  match s.channel? ch with
  | none => .refused (.noSuchChannel ch)
  | some c =>
    match c.fault, c.slot with
    | none, some op =>
      match exec (op.instr ch) (s.setChannel ch (c.fillSlot none)) with
      | .next t => .next (keepIfFaulted ch op t)
      | .fault f => .fault f
      | .refused r => .refused r
    | _, _ => .next s

/-- One move. -/
def runTurn (t : Turn) (s : State) : Answer :=
  match t with
  | .issue q => issueRequest q s
  | .place q => placeRequest q s
  | .serve ch => serveSlot ch s

end Sys2Proof.Machine
end

