-- ==== Sys2Proof/Machine/Step.lean ====
section
/-! DEFINITION. One step: the next move of the hosts' stream, or, with none left, holding (spec/60_exceptions.md R98,
70_reset_and_hazards.md R106 and R107); and how a request is put where the step reads it (log 2). -/

namespace Sys2Proof.Machine

open Sys2Proof

/-- One step. With no move left the machine holds its state (R20, R98; log 2). -/
def step (s : State) : Host.Outcome State Fault Refusal :=
  match s.popTurn with
  | some (t, rest) => runTurn t rest
  | none => .next s

/-- `s` with a host about to issue the request whose word has the bits `w` to instance 0; a `w` of more than 12 bits is no
request, and then nothing is issued. -/
def State.withFetchWord (s : State) (nbits w : Nat) : State :=
  match tableRequest nbits w with
  | some q => s.pushTurn (.issue q)
  | none => s

end Sys2Proof.Machine
end

