-- ==== Sys2Proof/Machine/Assembler.lean ====
section
/-! DEFINITION. The assembly syntax (spec/30_encoding.md R47 and R48): a line of text to the request it stands for. The
details the spec does not give (letter case, white space, the channel number's base) are log 16's. -/

namespace Sys2Proof.Machine

open Sys2Proof

/-- Why a line has no encoding (R47: "An operand out of range is an assembly error"). Safe: such a line gives no request. -/
inductive AsmError where
  | badNumber         -- the operand or the channel number is no number of R47's form
  | operandOutOfRange -- over 0xFF for ENC, over 0x3FF for DEC
  | unknownOperation  -- no line of R47's table
  deriving DecidableEq, Repr

/-- The value of a digit in a base of at most 16; both letter cases. -/
def digitValue (base : Nat) (c : Char) : Option Nat :=
  let n := c.toNat
  let d := if 48 ≤ n ∧ n ≤ 57 then n - 48
    else if 65 ≤ n ∧ n ≤ 70 then n - 55
    else if 97 ≤ n ∧ n ≤ 102 then n - 87
    else base
  if d < base then some d else none

/-- The number a list of digits stands for, the most significant first, after `acc`. -/
def digitsValue (base acc : Nat) : List Char → Option Nat
  | [] => some acc
  | c :: cs =>
    match digitValue base c with
    | some d => digitsValue base (acc * base + d) cs
    | none => none

/-- A number with at least one digit. -/
def readDigits (base : Nat) (cs : List Char) : Option Nat := if cs.isEmpty then none else digitsValue base 0 cs

/-- A numeric operand: hexadecimal `0x..` or binary `0b..`, the most significant bit first (R11, R47). -/
def readOperand : List Char → Option Nat
  | '0' :: 'x' :: cs => readDigits 16 cs
  | '0' :: 'b' :: cs => readDigits 2 cs
  | _ => none

/-- The text before the comment that `;` starts (R47). -/
def dropComment (cs : List Char) : List Char := cs.takeWhile (fun c => c != ';')

/-- The words of a text, cut at white space; `word` holds the letters read so far, the last first. -/
def splitWords (word : List Char) : List Char → List (List Char)
  | [] => if word.isEmpty then [] else [word.reverse]
  | c :: cs =>
    if c.isWhitespace then
      if word.isEmpty then splitWords [] cs else word.reverse :: splitWords [] cs
    else splitWords (c :: word) cs

/-- The channel number of a word `c<k>:` (R47), or `none` where the word has not that form. -/
def readChannel (word : List Char) : Option (Option Nat) :=
  match word, word.getLast? with
  | 'c' :: rest, some ':' => some (readDigits 10 rest.dropLast)
  | _, _ => none

/-- The operation of a line's words, addressed to the instance `ch` (R47). -/
def assembleWords (ch : Nat) : List (List Char) → Except AsmError Instr
  | [['E', 'N', 'C'], operand] =>
    match readOperand operand with
    | some n => if n ≤ 0xFF then .ok (.enc ch (BitVec.ofNat 8 n)) else .error .operandOutOfRange
    | none => .error .badNumber
  | [['D', 'E', 'C'], operand] =>
    match readOperand operand with
    | some n => if n ≤ 0x3FF then .ok (.dec (BitVec.ofNat 10 n)) else .error .operandOutOfRange
    | none => .error .badNumber
  | [['R', 'S', 'T']] => .ok (.rst ch)
  | _ => .error .unknownOperation

/-- The request of a line (R47), or `none` where the line holds no operation. Without a channel a line addresses instance 0. -/
def assembleLine (line : List Char) : Except AsmError (Option Request) :=
  match splitWords [] (dropComment line) with
  | [] => .ok none
  | first :: rest =>
    match readChannel first with
    | some (some ch) => (assembleWords ch rest).map (fun i => some (encode i))
    | some none => .error .badNumber
    | none => (assembleWords 0 (first :: rest)).map (fun i => some (encode i))

end Sys2Proof.Machine
end

