-- ==== Sys2Proof/Safety.lean ====
section
/-! DEFINITION. What a run's end is and what may be observed of it (spec/70_reset_and_hazards.md R107), and the invariants of
the state that claims use (10_state.md R18, R22; 60_exceptions.md R89, R92). -/

namespace Sys2Proof.Machine

open Sys2Proof

/-- What R107 lets one see of an instance: its final `RB`, `OUT` and `FAULT`. -/
structure ChannelView where
  rb    : Int
  out   : List Symbol
  fault : Option Fault
  deriving DecidableEq, Repr

/-- The observation of a run (R107): every instance's view, `DOUT` and the global refusal mark. -/
structure Observation where
  channels    : List ChannelView
  dout        : List Word
  refusalMark : Option RefusalReason
  deriving DecidableEq, Repr

/-- What one may see of an instance. -/
def Channel.view (c : Channel) : ChannelView := { rb := c.rb, out := c.out, fault := c.fault }

/-- What one may see of the machine (R107). The request slots and the stream are not part of it. -/
def State.observe (s : State) : Observation :=
  { channels := s.channels.map Channel.view, dout := s.dout, refusalMark := s.refusalMark }

/-- No fault and no refusal recorded: every `FAULT` is `none` and the refusal mark is clear (R107). -/
def State.clean (s : State) : Bool := s.channels.all (fun c => c.fault.isNone) && s.refusalMark.isNone

/-- Every request has been taken: the stream is empty and no slot holds one (R107). DESIGN CHOICE (safe, log 23): a request left
in a faulted instance's slot is not taken, so such a run has not ended; it is not final either way. -/
def State.ended (s : State) : Bool := s.turns.isEmpty && s.channels.all (fun c => c.slot.isNone)

/-- A final state of a run (R107): it has ended, with no fault and no refusal recorded. -/
def State.final (s : State) : Bool := s.ended && s.clean

/-- A state a machine can be launched in (R9, R18, R22): at least one channel, a width of at least one bit, and every bias a
value its register can hold. -/
def State.legal (s : State) : Bool :=
  decide (1 ≤ s.channels.length) && decide (s.biasWidth ≠ some 0) && s.channels.all (fun c => biasFits s.biasWidth c.rb)

/-- Every bias is even, as every bias reached from reset is (R22, R72). -/
def State.evenBiases (s : State) : Bool := s.channels.all (fun c => decide (c.rb % 2 = 0))

/-- What the fault mark of the instance number `ch` says is so (R76, R89, R92): an overflow names this instance, an ENC
request, the bias the instance still holds and the exact bias that did not fit; a concurrent access names this instance, the
request its slot still holds and an ENC or RST request. -/
def Channel.markTrue (width : Option Nat) (ch : Nat) (c : Channel) : Prop :=
  match c.fault with
  | none => True
  | some (.biasOverflow r k b b') =>
    k = ch ∧ b = c.rb ∧ biasFits width b' = false ∧ ∃ w, r = encodeWord (.enc ch w) ∧ b' = (encodeStep w b).2
  | some (.concurrentAccess held arriving k) =>
    k = ch ∧ (∃ op, c.slot = some op ∧ held = op.requestWord) ∧ ∃ op : SlotRequest, arriving = op.requestWord

/-- Every fault mark is true of its instance. -/
def State.marksTrue (s : State) : Prop := ∀ ch c, s.channel? ch = some c → c.markTrue s.biasWidth ch

/-- A move that names only instances the machine has (R42). A reserved word and a DEC name none. -/
def Turn.wf (n : Nat) : Turn → Bool
  | .issue q => match decode q with
    | .ok i => i.wf n
    | .error _ => true
  | .place q => match decode q with
    | .ok i => i.wf n
    | .error _ => true
  | .serve ch => decide (ch < n)

/-- `k` steps, stopping at the first answer that is no next state. -/
def runSteps : Nat → State → Answer
  | 0, s => .next s
  | k + 1, s =>
    match step s with
    | .next t => runSteps k t
    | .fault f => .fault f
    | .refused r => .refused r

/-- The bias after the words `ws` from the bias `b`, on an unbounded register (R75, R77). -/
def biasAfter (b : Int) : List Word → Int
  | [] => b
  | w :: ws => biasAfter (encodeStep w b).2 ws

/-- The symbols the words `ws` give from the bias `b`, in order (R75, R77). -/
def symbolsFrom (b : Int) : List Word → List Symbol
  | [] => []
  | w :: ws => (encodeStep w b).1 :: symbolsFrom (encodeStep w b).2 ws

/-- A host's stream that issues the requests `ops` to the instance `ch`, in that order (R33, R101). -/
def issueAll (ch : Nat) (ops : List SlotRequest) : List Turn := ops.map (fun op => .issue (encode (op.instr ch)))

end Sys2Proof.Machine
end

