-- ==== Sys2Proof/Certificates/Slice0/Obligations.lean ====
section
/-! DEFINITION. The statements for the provers. Each docstring names the rule of spec/ it formalises; where the spec marks a
rule as its own inference ("[derived: …]"), or the model's choice is involved, the docstring says so. -/

open Sys2Proof Sys2Proof.Machine

/-! ## BitOps (40_bitops_candidates.md section 1) -/

/-- R49. -/
def Obligations.CountOnesCountsTheSetBits : Prop :=
  (∀ (n : Nat) (v : BitVec n),
      countOnes v = (Finset.univ.filter (fun i : Fin n => v.getLsbD i = true)).card ∧ countOnes v ≤ n)
    ∧ (∀ n : Nat, countOnes (0#n) = 0 ∧ countOnes (BitVec.allOnes n) = n)
    ∧ countOnes 0xB4#8 = 4

/-- R50. -/
def Obligations.CountTransitionsCountsTheChanges : Prop :=
  (∀ (n : Nat) (v : BitVec n),
      countTransitions v = (Finset.univ.filter (fun i : Fin (n - 1) => v.getLsbD i ≠ v.getLsbD (i + 1))).card
        ∧ countTransitions v ≤ n - 1)
    ∧ (∀ v : BitVec 1, countTransitions v = 0)
    ∧ (∀ n : Nat, countTransitions (0#n) = 0 ∧ countTransitions (BitVec.allOnes n) = 0)
    ∧ countTransitions 0x55#8 = 7 ∧ countTransitions 0xAA#8 = 7 ∧ countTransitions 0xB4#8 = 5

/-- R51. -/
def Obligations.BitBiasIsOnesMinusZeros : Prop :=
  (∀ (n : Nat) (v : BitVec n),
      bitBias v = (∑ i : Fin n, if v.getLsbD i then (1 : Int) else -1)
        ∧ bitBias v = 2 * (countOnes v : Int) - n ∧ -(n : Int) ≤ bitBias v ∧ bitBias v ≤ n)
    ∧ (∀ n : Nat, bitBias (0#n) = -(n : Int) ∧ bitBias (BitVec.allOnes n) = n)
    ∧ bitBias 0xB4#8 = 0 ∧ bitBias 0x100#10 = -8

/-- R52, which the spec marks "[derived: from rule R49 and rule R51]". -/
def Obligations.BitBiasParityNegationAndConcatenation : Prop :=
  (∀ (n : Nat) (v : BitVec n), bitBias v % 2 = (n : Int) % 2)
    ∧ (∀ (n : Nat) (v : BitVec n), bitBias (~~~v) = -bitBias v)
    ∧ (∀ (n m : Nat) (a : BitVec n) (b : BitVec m), bitBias (a ++ b) = bitBias a + bitBias b)

/-! ## Candidates and selection (40_bitops_candidates.md sections 2 and 3) -/

/-- R53: bit 0 of both candidates is the word's, and the XOR chain's recurrence. -/
def Obligations.XorChainFollowsTheRecurrence : Prop :=
  (∀ w : Word, (xorChain w).getLsbD 0 = w.getLsbD 0 ∧ (xnorCandidate w).getLsbD 0 = w.getLsbD 0)
    ∧ (∀ (w : Word) (n : Nat), 1 ≤ n → n ≤ 7 →
        (xorChain w).getLsbD n = ((xorChain w).getLsbD (n - 1) ^^ w.getLsbD n))
    ∧ xorChain 0x00#8 = 0x00#8 ∧ xorChain 0xFF#8 = 0x55#8 ∧ xorChain 0x01#8 = 0xFF#8 ∧ xorChain 0xB4#8 = 0x6C#8

/-- R54, which the spec marks "[derived: from rule R53]". -/
def Obligations.UnchainInvertsTheXorChain : Prop :=
  (∀ (w : Word) (n : Nat), n ≤ 7 →
      (xorChain w).getLsbD n = ((List.range (n + 1)).map (fun k => w.getLsbD k)).foldl Bool.xor false)
    ∧ (∀ w : Word, unchain (xorChain w) = w) ∧ (∀ c : Candidate, xorChain (unchain c) = c)
    ∧ (∀ c : Candidate, (unchain c).getLsbD 0 = c.getLsbD 0)
    ∧ (∀ (c : Candidate) (n : Nat), 1 ≤ n → n ≤ 7 →
        (unchain c).getLsbD n = (c.getLsbD (n - 1) ^^ c.getLsbD n))
    ∧ (∀ w : Word, countTransitions (xorChain w) = tailOnes w)

/-- R55. -/
def Obligations.XnorCandidateComplementsBitsOneToSeven : Prop :=
  (∀ w : Word, (xnorCandidate w).getLsbD 0 = (xorChain w).getLsbD 0)
    ∧ (∀ (w : Word) (n : Nat), 1 ≤ n → n ≤ 7 → (xnorCandidate w).getLsbD n = !(xorChain w).getLsbD n)
    ∧ (∀ w : Word, xnorCandidate w = xorChain w ^^^ 0xFE#8)
    ∧ xnorCandidate 0x00#8 = 0xFE#8 ∧ xnorCandidate 0xFF#8 = 0xAB#8 ∧ xnorCandidate 0x02#8 = 0x00#8
    ∧ xnorCandidate 0xB4#8 = 0x92#8

/-- R56 and R57: the count, the rule, and that ENC's selector bit is this rule's at every bias. -/
def Obligations.SelectorIsOneBelowFourTailOnes : Prop :=
  (∀ w : Word, tailOnes w = (Finset.univ.filter (fun i : Fin 7 => w.getLsbD (i + 1) = true)).card)
    ∧ (∀ w : Word, tailOnes w ≤ 7)
    ∧ tailOnes 0x01#8 = 0 ∧ tailOnes 0xFF#8 = 7 ∧ tailOnes 0xB4#8 = 4
    ∧ (∀ w : Word, (4 ≤ tailOnes w → selectShortcut w = false) ∧ (tailOnes w < 4 → selectShortcut w = true))
    ∧ (∀ w : Word, selectShortcut (w ^^^ 0x01#8) = selectShortcut w)
    ∧ tailOnes 0x0E#8 = 3 ∧ selectShortcut 0x0E#8 = true ∧ tailOnes 0x1E#8 = 4 ∧ selectShortcut 0x1E#8 = false
    ∧ selectShortcut 0x00#8 = true ∧ selectShortcut 0xFF#8 = false ∧ selectShortcut 0xB4#8 = false
    ∧ (∀ (w : Word) (b : Int), symbolSelector (encodeStep w b).1 = selectShortcut w)

/-- R58 (the oracle's definition), and R59, which the spec marks "[derived: …]". -/
def Obligations.DirectRuleComparesTransitionCounts : Prop :=
  (∀ w : Word, (countTransitions (xnorCandidate w) < countTransitions (xorChain w) → selectDirect w = false)
      ∧ (countTransitions (xorChain w) ≤ countTransitions (xnorCandidate w) → selectDirect w = true))
    ∧ (∀ w : Word, (countTransitions (xnorCandidate w) : Int) - countTransitions (xorChain w)
        = 1 - 2 * ((w.getLsbD 1).toNat : Int))
    ∧ (∀ w : Word, countTransitions (xnorCandidate w) = (1 - (w.getLsbD 1).toNat) + countOnes (w.extractLsb' 2 6))
    ∧ (∀ w : Word, selectDirect w = false ↔ w.getLsbD 1 = true)
    ∧ selectDirect 0x02#8 = false ∧ selectShortcut 0x02#8 = true

/-- R60, which the spec marks "[derived: from rule R57 and rule R59]" (90_conflicts.md C1). -/
def Obligations.DirectAndShortcutDisagreeOnEightyEightWords : Prop :=
  (∀ w : Word, selectDirect w ≠ selectShortcut w ↔
      (w.getLsbD 1 = true ∧ tailOnes w ≤ 3) ∨ (w.getLsbD 1 = false ∧ 4 ≤ tailOnes w))
    ∧ ((List.range 256).filter (fun k =>
        selectDirect (BitVec.ofNat 8 k) && !selectShortcut (BitVec.ofNat 8 k))).length = 44
    ∧ ((List.range 256).filter (fun k =>
        !selectDirect (BitVec.ofNat 8 k) && selectShortcut (BitVec.ofNat 8 k))).length = 44

/-- R61. -/
def Obligations.ChosenCandidateFollowsTheSelector : Prop :=
  (∀ w : Word, (chooseCandidate w).2 = selectShortcut w)
    ∧ (∀ w : Word, selectShortcut w = true → (chooseCandidate w).1 = xorChain w)
    ∧ (∀ w : Word, selectShortcut w = false → (chooseCandidate w).1 = xnorCandidate w)
    ∧ chooseCandidate 0x02#8 = (0xFE#8, true) ∧ chooseCandidate 0xFC#8 = (0xAA#8, false)
    ∧ chooseCandidate 0x00#8 = (0x00#8, true) ∧ chooseCandidate 0xFF#8 = (0xAB#8, false)

/-- R62, which the spec marks "[derived: from rule R59 and rule R61]" (90_conflicts.md C2). Both words of most transitions have
7; the candidate of 0xFD is R55's 0x55, where R62's prose says 0xAA of both (log 22). -/
def Obligations.TransitionsOfTheChosenCandidate : Prop :=
  (∀ w : Word, selectShortcut w = true →
        countTransitions (chooseCandidate w).1 = tailOnes w ∧ tailOnes w ≤ 3)
    ∧ (∀ w : Word, selectShortcut w = false →
        countTransitions (chooseCandidate w).1 = (1 - (w.getLsbD 1).toNat) + countOnes (w.extractLsb' 2 6)
          ∧ 3 ≤ countTransitions (chooseCandidate w).1 ∧ countTransitions (chooseCandidate w).1 ≤ 7)
    ∧ (∀ w : Word, countTransitions (chooseCandidate w).1 = 7 ↔ w = 0xFC#8 ∨ w = 0xFD#8)
    ∧ (chooseCandidate 0xFC#8).1 = 0xAA#8 ∧ (chooseCandidate 0xFD#8).1 = 0x55#8
    ∧ (∀ w : Word, 3 < countTransitions (chooseCandidate w).1 ↔
        selectShortcut w = false ∧ ¬(w.getLsbD 1 = true ∧ tailOnes w = 4))
    ∧ ((List.range 256).filter (fun k =>
        decide (3 < countTransitions (chooseCandidate (BitVec.ofNat 8 k)).1))).length = 88

/-! ## DcBalancer (41_dc_balancer.md) -/

/-- R63, R64 and R65: the candidate's bias, the tie branch and the sign branch, at every candidate, selector and bias. -/
def Obligations.InvertFlagFollowsTheTieAndSignBranches : Prop :=
  ∀ (q : Candidate) (sel : Bool) (b : Int),
    let s := (balance q sel b).1
    let cb := bitBias q
    (cb % 2 = 0 ∧ -8 ≤ cb ∧ cb ≤ 8)
      ∧ (b = 0 ∨ cb = 0 → symbolInvert s = (!sel) ∧
          ((symbolSelector s, symbolInvert s) = (true, false) ∨ (symbolSelector s, symbolInvert s) = (false, true)))
      ∧ (b ≠ 0 → cb ≠ 0 → (symbolInvert s = true ↔ (b < 0 ∧ 0 < cb) ∨ (0 < b ∧ cb < 0)))

/-- R66 and R67: the symbol's three fields, the symbol as a number, and the next bias over all ten bits. -/
def Obligations.SymbolAssemblyAndBiasUpdate : Prop :=
  ∀ (q : Candidate) (sel : Bool) (b : Int),
    let s := (balance q sel b).1
    let inv := invertFlag sel (bitBias q) b
    symbolData s = (if inv then q ^^^ 0xFF#8 else q) ∧ symbolSelector s = sel ∧ symbolInvert s = inv
      ∧ s.toNat = inv.toNat * 2 ^ 9 + sel.toNat * 2 ^ 8 + (symbolData s).toNat
      ∧ (balance q sel b).2 = b + bitBias s

/-- R40: a symbol is its three fields, and nothing else; and in a symbol ENC emits, the selector bit says which candidate was
used and the invert flag whether its bits were inverted. -/
def Obligations.SymbolIsItsThreeFields : Prop :=
  (∀ s : Symbol, makeSymbol (symbolInvert s) (symbolSelector s) (symbolData s) = s)
    ∧ (∀ s : Symbol, s.toNat = (symbolInvert s).toNat * 2 ^ 9 + (symbolSelector s).toNat * 2 ^ 8 + (symbolData s).toNat)
    ∧ (∀ (inv sel : Bool) (d : BitVec 8),
        symbolInvert (makeSymbol inv sel d) = inv ∧ symbolSelector (makeSymbol inv sel d) = sel
          ∧ symbolData (makeSymbol inv sel d) = d)
    ∧ (∀ (w : Word) (b : Int),
        let s := (encodeStep w b).1
        let q := if symbolSelector s then xorChain w else xnorCandidate w
        symbolData s = if symbolInvert s then q ^^^ 0xFF#8 else q)

/-- R69, which the spec marks "[derived: …]": the symbol's bias, and the three rows of the change's table. -/
def Obligations.BiasChangeInEachBranch : Prop :=
  ∀ (q : Candidate) (sel : Bool) (b : Int),
    let cb := bitBias q
    let inv := invertFlag sel cb b
    let selN : Int := (sel.toNat : Int)
    let invN : Int := (inv.toNat : Int)
    let delta := (balance q sel b).2 - b
    (bitBias (balance q sel b).1 = (if inv then -cb else cb) + (2 * selN - 1) + (2 * invN - 1))
      ∧ (b = 0 ∨ cb = 0 → delta = if sel then cb else -cb)
      ∧ ((b < 0 ∧ cb < 0) ∨ (0 < b ∧ 0 < cb) → inv = false ∧ delta = cb + 2 * selN - 2)
      ∧ ((b < 0 ∧ 0 < cb) ∨ (0 < b ∧ cb < 0) → inv = true ∧ delta = -cb + 2 * selN)

/-- R70 and R78, which the spec marks "[derived: …]": the symbol and the change are those at the bias's sign. -/
def Obligations.SymbolAndChangeDependOnTheSignOfTheBias : Prop :=
  (∀ (q : Candidate) (sel : Bool) (b : Int),
      balance q sel b = ((balance q sel b.sign).1, b + ((balance q sel b.sign).2 - b.sign)))
    ∧ (∀ (w : Word) (b : Int),
        encodeStep w b = ((encodeStep w b.sign).1, b + ((encodeStep w b.sign).2 - b.sign)))

/-- R71, which the spec marks "[derived: from rule R69]": the bias diverges. -/
def Obligations.BiasNeverReturnsTowardZero : Prop :=
  (∀ (q : Candidate) (sel : Bool) (b : Int), 0 < b → b ≤ (balance q sel b).2)
    ∧ (∀ (q : Candidate) (sel : Bool) (b : Int), b < 0 → (balance q sel b).2 ≤ b)
    ∧ (∀ n : Nat, biasAfter 0 (List.replicate n 0x00#8) = -8 * (n : Int)
        ∧ symbolsFrom 0 (List.replicate n 0x00#8) = List.replicate n 0x100#10)
    ∧ (∀ (b : Int) (bound : Nat), ∃ ws : List Word, bound < (biasAfter b ws).natAbs)

/-- R72, which the spec marks "[derived: …]": every change is even and lies in -10 .. 10; the changes that occur at each
sign of the bias are exactly the listed ones; after n words from 0 the bias is at most 10·n away from 0. -/
def Obligations.BiasChangesAreEvenAndBounded : Prop :=
  (∀ (q : Candidate) (sel : Bool) (b : Int), let delta := (balance q sel b).2 - b
      delta % 2 = 0 ∧ -10 ≤ delta ∧ delta ≤ 10)
    ∧ (∀ d : Int, (∃ w : Word, (encodeStep w 0).2 = d) ↔ d % 2 = 0 ∧ -8 ≤ d ∧ d ≤ 8)
    ∧ (∀ b d : Int, 0 < b → ((∃ w : Word, (encodeStep w b).2 - b = d) ↔ d % 2 = 0 ∧ 0 ≤ d ∧ d ≤ 10))
    ∧ (∀ b d : Int, b < 0 → ((∃ w : Word, (encodeStep w b).2 - b = d) ↔ d % 2 = 0 ∧ -8 ≤ d ∧ d ≤ 0))
    ∧ (∀ ws : List Word, (biasAfter 0 ws).natAbs ≤ 10 * ws.length ∧ biasAfter 0 ws % 2 = 0)

/-- R73, which the spec marks "[derived: from rule R64]": in the tie branch the pair of control bits is a function of the word
alone, it adds nothing to the bias, and it does not alternate. -/
def Obligations.TiePairIsAFunctionOfTheWord : Prop :=
  (∀ (w : Word) (b : Int), b = 0 ∨ bitBias (chooseCandidate w).1 = 0 →
      let s := (encodeStep w b).1
      symbolSelector s = selectShortcut w ∧ symbolInvert s = (!selectShortcut w)
        ∧ (encodeStep w b).2 - b = bitBias (symbolData s))
    ∧ symbolsFrom 0 [0x10#8, 0x10#8, 0x10#8] = [0x1F0#10, 0x1F0#10, 0x1F0#10]
    ∧ biasAfter 0 [0x10#8, 0x10#8, 0x10#8] = 0

/-! ## ENC and RST (42_encoder.md) -/

/-- R75, for every state and word: ENC on an instance that is not faulted and whose slot is empty. Where the new bias fits it
writes `RB`, emits the symbol and changes nothing else; where it does not, it raises `BIAS_OVERFLOW` and changes nothing else.
With the rule's corner cases and example. -/
def Obligations.EncWritesTheBiasAndEmitsTheSymbol : Prop :=
  (∀ (s : State) (ch : Nat) (w : Word) (c : Channel),
      s.channel? ch = some c → c.fault = none → c.slot = none →
      biasFits s.biasWidth (balance (chooseCandidate w).1 (chooseCandidate w).2 c.rb).2 = true →
      exec (.enc ch w) s = .next (s.setChannel ch
        { c with rb := (balance (chooseCandidate w).1 (chooseCandidate w).2 c.rb).2
                 out := c.out ++ [(balance (chooseCandidate w).1 (chooseCandidate w).2 c.rb).1] }))
    ∧ (∀ (s : State) (ch : Nat) (w : Word) (c : Channel),
      s.channel? ch = some c → c.fault = none → c.slot = none →
      biasFits s.biasWidth (balance (chooseCandidate w).1 (chooseCandidate w).2 c.rb).2 = false →
      exec (.enc ch w) s = .next (s.setChannel ch
        { c with fault := some (.biasOverflow (encodeWord (.enc ch w)) ch c.rb
                                  (balance (chooseCandidate w).1 (chooseCandidate w).2 c.rb).2) }))
    ∧ (∀ (w : Word) (b : Int), bitBias (chooseCandidate w).1 = 0 → (encodeStep w b).2 = b)
    ∧ (∀ w : Word, symbolInvert (encodeStep w 0).1 = !selectShortcut w)
    ∧ (∀ w : Word, (tailOnes w = 4 → (chooseCandidate w).1 = xnorCandidate w)
        ∧ (tailOnes w = 3 → (chooseCandidate w).1 = xorChain w))
    ∧ (∀ w : Word, selectShortcut (w ^^^ 0x01#8) = selectShortcut w
        ∧ (chooseCandidate (w ^^^ 0x01#8)).1 = ~~~(chooseCandidate w).1
        ∧ symbolData (encodeStep (w ^^^ 0x01#8) 0).1 = ~~~symbolData (encodeStep w 0).1)
    ∧ encodeStep 0x00#8 0 = (0x100#10, -8)
    ∧ (∀ (ch : Nat) (w : Word), decode ⟨ch, 0b0000#4 ++ w⟩ = .ok (.enc ch w))

/-- R76, in the rule's own numbers: with a finite width `W` an ENC whose new bias lies outside `-2^(W-1) .. 2^(W-1)-1` faults
with what R89 records, and neither `RB` nor `OUT` is written; inside, and with the unbounded register always, ENC writes both.
(T10's row that lets +16 into a 5-bit register contradicts this rule; the model follows the rule, log 21.) -/
def Obligations.EncFaultsExactlyOutsideTheRegisterRange : Prop :=
  (∀ (s : State) (ch : Nat) (w : Word) (c : Channel) (W : Nat),
      s.channel? ch = some c → c.fault = none → c.slot = none → s.biasWidth = some W → 1 ≤ W →
      ((encodeStep w c.rb).2 < -(2 : Int) ^ (W - 1) ∨ (2 : Int) ^ (W - 1) - 1 < (encodeStep w c.rb).2 →
        exec (.enc ch w) s = .next (s.setChannel ch
          { c with fault := some (.biasOverflow (encodeWord (.enc ch w)) ch c.rb (encodeStep w c.rb).2) }))
      ∧ (-(2 : Int) ^ (W - 1) ≤ (encodeStep w c.rb).2 → (encodeStep w c.rb).2 ≤ (2 : Int) ^ (W - 1) - 1 →
        exec (.enc ch w) s = .next (s.setChannel ch
          { c with rb := (encodeStep w c.rb).2, out := c.out ++ [(encodeStep w c.rb).1] })))
    ∧ (∀ (s : State) (ch : Nat) (w : Word) (c : Channel),
      s.channel? ch = some c → c.fault = none → c.slot = none → s.biasWidth = none →
      exec (.enc ch w) s = .next (s.setChannel ch
        { c with rb := (encodeStep w c.rb).2, out := c.out ++ [(encodeStep w c.rb).1] }))

/-- R79: RST writes 0 to `RB` of the instance it names and nothing else; a second RST changes nothing; a faulted instance
takes no RST step; the next ENC starts from 0. -/
def Obligations.RstWritesZeroToTheBias : Prop :=
  (∀ (s : State) (ch : Nat) (c : Channel), s.channel? ch = some c → c.fault = none → c.slot = none →
      exec (.rst ch) s = .next (s.setChannel ch { c with rb := 0 })
        ∧ exec (.rst ch) (s.setChannel ch { c with rb := 0 }) = .next (s.setChannel ch { c with rb := 0 })
        ∧ (c.rb = 0 → exec (.rst ch) s = .next s)
        ∧ (s.biasWidth = none → exec (.enc ch 0x00#8) (s.setChannel ch { c with rb := 0 })
            = .next (s.setChannel ch { c with rb := -8, out := c.out ++ [0x100#10] })))
    ∧ (∀ (s : State) (ch : Nat) (c : Channel) (f : Fault), s.channel? ch = some c → c.fault = some f →
      exec (.rst ch) s = .next s)
    ∧ (∀ ch : Nat, decode ⟨ch, 0b100000000000#12⟩ = .ok (.rst ch))

/-- R80, which the spec marks "[derived: …]": after an RST nothing an instance held before shows. Two machines of one width
run RST and then the same requests on an instance: they emit the same further symbols and end with the same bias and fault. -/
def Obligations.RstForgetsTheHistory : Prop :=
  ∀ (s₁ s₂ : State) (ch : Nat) (c₁ c₂ : Channel) (ops : List SlotRequest) (rest₁ rest₂ : List Turn),
    s₁.biasWidth = s₂.biasWidth → s₁.channel? ch = some c₁ → s₂.channel? ch = some c₂ →
    c₁.fault = none → c₂.fault = none → c₁.slot = none → c₂.slot = none →
    s₁.turns = issueAll ch (.rst :: ops) ++ rest₁ → s₂.turns = issueAll ch (.rst :: ops) ++ rest₂ →
    ∃ (t₁ t₂ : State) (d₁ d₂ : Channel) (more : List Symbol),
      runSteps (ops.length + 1) s₁ = .next t₁ ∧ runSteps (ops.length + 1) s₂ = .next t₂
        ∧ t₁.channel? ch = some d₁ ∧ t₂.channel? ch = some d₂
        ∧ d₁.out = c₁.out ++ more ∧ d₂.out = c₂.out ++ more ∧ d₁.rb = d₂.rb ∧ d₁.fault = d₂.fault

/-! ## DEC (43_decoder.md) -/

/-- R82: DEC, in every state, appends to `DOUT` the word of the rule's recovery, and changes nothing else. -/
def Obligations.DecAppendsTheRecoveredWord : Prop :=
  (∀ (symbol : Symbol), ∃ w : Word,
      (∀ s : State, exec (.dec symbol) s = .next { s with dout := s.dout ++ [w] })
        ∧ ∃ q c : Candidate,
          q = (if symbol.getLsbD 9 then symbol.extractLsb' 0 8 ^^^ 0xFF#8 else symbol.extractLsb' 0 8)
            ∧ c = (if symbol.getLsbD 8 then q else q ^^^ 0xFE#8)
            ∧ w.getLsbD 0 = c.getLsbD 0
            ∧ ∀ n, 1 ≤ n → n ≤ 7 → w.getLsbD n = (c.getLsbD (n - 1) ^^ c.getLsbD n))
    ∧ decodeSymbol 0x100#10 = 0x00#8 ∧ decodeSymbol 0x000#10 = 0x02#8 ∧ decodeSymbol 0x254#10 = 0xFF#8
    ∧ (∀ (ch : Nat) (symbol : Symbol), decode ⟨ch, 0b01#2 ++ symbol⟩ = .ok (.dec symbol))

/-- R83, which the spec marks "[derived: …]": DEC's two closed forms. -/
def Obligations.DecClosedForms : Prop :=
  ∀ s : Symbol,
    decodeSymbol s = unchain (s.extractLsb' 0 8 ^^^ (if s.getLsbD 9 then 0xFF#8 else 0x00#8)
        ^^^ (if s.getLsbD 8 then 0x00#8 else 0xFE#8))
      ∧ decodeSymbol s = unchain (s.extractLsb' 0 8) ^^^ (if s.getLsbD 9 then 0x01#8 else 0x00#8)
        ^^^ (if s.getLsbD 8 then 0x00#8 else 0x02#8)

/-- R84, which the spec marks "[derived: …]": decoding what ENC emits gives the word back, whatever the bias: for the symbol of
every word at every integer, for a whole stream of words, and for ENC and then DEC on the machine. -/
def Obligations.DecodingUndoesEncodingAtEveryBias : Prop :=
  (∀ (w : Word) (b : Int), decodeSymbol (encodeStep w b).1 = w)
    ∧ (∀ (ws : List Word) (b : Int), (symbolsFrom b ws).map decodeSymbol = ws)
    ∧ (∀ (s : State) (ch : Nat) (w : Word) (c : Channel),
      s.channel? ch = some c → c.fault = none → c.slot = none → biasFits s.biasWidth (encodeStep w c.rb).2 = true →
      ∃ (t u : State) (d : Channel) (symbol : Symbol), exec (.enc ch w) s = .next t ∧ t.channel? ch = some d
        ∧ d.out = c.out ++ [symbol] ∧ exec (.dec symbol) t = .next u ∧ u.dout = s.dout ++ [w])

/-- R85, which the spec marks "[derived: from rule R82]": four symbols decode to each word, one for each pair of control bits. -/
def Obligations.FourSymbolsDecodeToEachWord : Prop :=
  (∀ (w : Word) (inv sel : Bool), ∃ d : BitVec 8, decodeSymbol (makeSymbol inv sel d) = w
      ∧ ∀ d' : BitVec 8, decodeSymbol (makeSymbol inv sel d') = w → d' = d)
    ∧ (∀ s : Symbol, decodeSymbol s = 0x00#8 ↔ s = 0x0FE#10 ∨ s = 0x100#10 ∨ s = 0x201#10 ∨ s = 0x3FF#10)
    ∧ (∀ (w : Word) (b : Int), symbolSelector (encodeStep w b).1 = selectShortcut w)

/-- The symbols ENC can emit, from R57, R64 and R65: those whose selector bit is the rule's verdict for the word they decode
to, and, where that word's candidate has bias 0, whose invert flag is the tie branch's. There are 442 of them. R41's derived
count is 512: the model follows R64 and T5 against it (log 20, DEDUCED). -/
def Obligations.SymbolsThatEncCanEmit : Prop :=
  (∀ s : Symbol, (∃ (w : Word) (b : Int), (encodeStep w b).1 = s) ↔
      symbolSelector s = selectShortcut (decodeSymbol s)
        ∧ (bitBias (chooseCandidate (decodeSymbol s)).1 = 0 → symbolInvert s = !symbolSelector s))
    ∧ ((List.range 1024).filter (fun k => [(-1 : Int), 0, 1].any (fun b =>
        (encodeStep (decodeSymbol (BitVec.ofNat 10 k)) b).1 == BitVec.ofNat 10 k))).length = 442

/-- What holds of R41 (log 20, DEDUCED). R57 and R66, the two rules its derived count cites, give each word two symbols, one for
each invert flag, with the rule's selector bit: they are different, both decode to the word, and over all words they are 512,
exactly the symbols whose selector bit is the verdict for the word they decode to. ENC emits no others; it emits both for every
word whose candidate's bias is not 0, and for the 70 others R64 leaves the one whose invert flag is NOT sel. -/
def Obligations.EmittedSymbolsAreAmongTheAssembledOnes : Prop :=
  let assembled (w : Word) (inv : Bool) : Symbol := makeSymbol inv (selectShortcut w) (invertIf inv (chooseCandidate w).1)
  (∀ (w : Word) (b : Int), (encodeStep w b).1 = assembled w (symbolInvert (encodeStep w b).1))
    ∧ (∀ (w : Word) (inv : Bool), decodeSymbol (assembled w inv) = w ∧ symbolInvert (assembled w inv) = inv)
    ∧ (∀ s : Symbol, (∃ (w : Word) (inv : Bool), assembled w inv = s) ↔ symbolSelector s = selectShortcut (decodeSymbol s))
    ∧ ((List.range 1024).filter (fun k =>
        symbolSelector (BitVec.ofNat 10 k) == selectShortcut (decodeSymbol (BitVec.ofNat 10 k)))).length = 512
    ∧ (∀ w : Word, bitBias (chooseCandidate w).1 ≠ 0 → ∀ inv : Bool, ∃ b : Int, (encodeStep w b).1 = assembled w inv)
    ∧ (∀ w : Word, bitBias (chooseCandidate w).1 = 0 → ∀ b : Int, (encodeStep w b).1 = assembled w (!selectShortcut w))
    ∧ ((List.range 256).filter (fun k => bitBias (chooseCandidate (BitVec.ofNat 8 k)).1 == 0)).length = 70

/-- R41's count, which the spec marks "[derived: …]" ("two per word, one with `INV = 0` and one with `INV = 1`"). Expected to
FAIL: it contradicts R64, since a word whose candidate has bias 0 always takes the tie branch, and so has one symbol (log 20). -/
def Obligations.EncEmitsBothInvertFlagsForEveryWord : Prop :=
  ∀ (w : Word) (inv : Bool), ∃ b : Int, symbolInvert (encodeStep w b).1 = inv

/-- R35: DEC commutes with every ENC, RST and DEC step that completes; its result depends on its operand alone. Of two DECs
only the order in `DOUT` differs. -/
def Obligations.DecCommutesWithEveryOperation : Prop :=
  (∀ (s t : State) (symbol : Symbol) (i : Instr), (∀ x, i ≠ .dec x) → exec i s = .next t →
      ∃ u v : State, exec (.dec symbol) s = .next u ∧ exec i u = .next v ∧ exec (.dec symbol) t = .next v)
    ∧ (∀ (s : State) (x y : Symbol), ∃ u v : State,
        exec (.dec x) s = .next u ∧ exec (.dec y) u = .next { s with dout := s.dout ++ [decodeSymbol x, decodeSymbol y] }
          ∧ exec (.dec y) s = .next v ∧ exec (.dec x) v = .next { s with dout := s.dout ++ [decodeSymbol y, decodeSymbol x] })

/-! ## What every step keeps and changes -/

/-- The frame of the three operations: what a completed or faulted ENC, RST or DEC leaves as it was (R17, R20, R21, R87, R92).
For every state and form. -/
def Obligations.FrameOfEncRstAndDec : Prop :=
  (∀ (s t : State) (ch : Nat) (w : Word), exec (.enc ch w) s = .next t →
      t.biasWidth = s.biasWidth ∧ t.dout = s.dout ∧ t.refusalMark = s.refusalMark ∧ t.turns = s.turns
        ∧ t.channels.length = s.channels.length
        ∧ (∀ k, k ≠ ch → t.channel? k = s.channel? k)
        ∧ (∀ c d, s.channel? ch = some c → t.channel? ch = some d → d.slot = c.slot
            ∧ (d = { c with fault := d.fault } ∨ d = { c with rb := d.rb, out := c.out ++ [(encodeStep w c.rb).1] })))
    ∧ (∀ (s t : State) (ch : Nat), exec (.rst ch) s = .next t →
      t.biasWidth = s.biasWidth ∧ t.dout = s.dout ∧ t.refusalMark = s.refusalMark ∧ t.turns = s.turns
        ∧ t.channels.length = s.channels.length
        ∧ (∀ k, k ≠ ch → t.channel? k = s.channel? k)
        ∧ (∀ c d, s.channel? ch = some c → t.channel? ch = some d → d.slot = c.slot ∧ d.out = c.out
            ∧ (d = { c with fault := d.fault } ∨ d = { c with rb := 0 })))
    ∧ (∀ (s t : State) (symbol : Symbol), exec (.dec symbol) s = .next t →
      t.biasWidth = s.biasWidth ∧ t.channels = s.channels ∧ t.refusalMark = s.refusalMark ∧ t.turns = s.turns)

/-- R34 and R21: operations on different instances commute. -/
def Obligations.DifferentInstancesCommute : Prop :=
  ∀ (s t : State) (i j : Instr), (∀ x, i ≠ .dec x) → (∀ x, j ≠ .dec x) → i.channel ≠ j.channel →
    exec i s = .next t → j.channel < s.channels.length →
    ∃ u v : State, exec j s = .next u ∧ exec i u = .next v ∧ exec j t = .next v

/-- R20: `RB` of an instance changes only by an ENC step, to the rule's new bias, and by an RST step, to 0: issued, or served
from the instance's slot. With no request it holds, and DEC neither writes nor reads it. -/
def Obligations.BiasChangesOnlyByEncAndRst : Prop :=
  (∀ (s t : State) (ch : Nat) (c d : Channel), step s = .next t → s.channel? ch = some c → t.channel? ch = some d →
      d.rb ≠ c.rb →
      ∃ op : SlotRequest,
        ((∃ q rest, s.turns = .issue q :: rest ∧ decode q = .ok (op.instr ch))
            ∨ (c.slot = some op ∧ ∃ rest, s.turns = .serve ch :: rest))
          ∧ ((∃ w, op = .enc w ∧ d.rb = c.rb + bitBias (encodeStep w c.rb).1 ∧ d.out = c.out ++ [(encodeStep w c.rb).1])
            ∨ (op = .rst ∧ d.rb = 0)))
    ∧ (∀ s : State, s.turns = [] → step s = .next s)
    ∧ (∀ (s t : State) (symbol : Symbol), exec (.dec symbol) s = .next t →
      t.channels = s.channels ∧ t.dout = s.dout ++ [decodeSymbol symbol])

/-- R104's first sentence and R71 on the machine, both inferences of the spec: over any step, a positive bias does not fall and
a negative one does not rise, unless the step is an RST, which leaves 0. -/
def Obligations.OnlyRstBringsTheBiasBack : Prop :=
  ∀ (s t : State) (ch : Nat) (c d : Channel), step s = .next t → s.channel? ch = some c → t.channel? ch = some d →
    (0 < c.rb → c.rb ≤ d.rb ∨ d.rb = 0) ∧ (c.rb < 0 → d.rb ≤ c.rb ∨ d.rb = 0)
      ∧ ((∀ q rest, s.turns = .issue q :: rest → decode q ≠ .ok (.rst ch)) → c.slot ≠ some .rst →
          (0 < c.rb → c.rb ≤ d.rb) ∧ (c.rb < 0 → d.rb ≤ c.rb))

/-- R91, on the three moves that log 3 (DEDUCED) reads from it. A request placed in an empty slot waits there, and the
instance's step takes it and performs it. An ENC or an RST that reaches an unfaulted instance whose slot is occupied, placed or
issued, raises `CONCURRENT_ACCESS` with both request words, and neither request is performed. Conversely a step that newly
raises it is such an arrival: the slot was occupied by the first request it records, and the move issued or placed the second.
So where every slot is empty and every move is an issued request, which is log 3's reading of one host agent an instance, no
step raises it, and that stays so. DEC has no slot: issued or placed (log 10, DEDUCED) it is performed at once. -/
def Obligations.OccupiedSlotRaisesConcurrentAccess : Prop :=
  (∀ (s : State) (ch : Nat) (c : Channel) (held op : SlotRequest),
      s.channel? ch = some c → c.fault = none → c.slot = some held →
      exec (op.instr ch) s = .next (s.setChannel ch
          { c with fault := some (.concurrentAccess held.requestWord op.requestWord ch) })
        ∧ (∀ rest, step (s.withTurns (.place (encode (op.instr ch)) :: rest))
            = .next ((s.setChannel ch
                { c with fault := some (.concurrentAccess held.requestWord op.requestWord ch) }).withTurns rest)))
    ∧ (∀ (s : State) (ch : Nat) (c : Channel) (op : SlotRequest) (rest : List Turn),
      s.channel? ch = some c → c.fault = none → c.slot = none →
      step (s.withTurns (.place (encode (op.instr ch)) :: rest))
        = .next ((s.setChannel ch { c with slot := some op }).withTurns rest))
    ∧ (∀ (s : State) (ch : Nat) (c : Channel) (w : Word) (rest : List Turn),
      s.channel? ch = some c → c.fault = none → c.slot = some (.enc w) →
      biasFits s.biasWidth (encodeStep w c.rb).2 = true →
      step (s.withTurns (.serve ch :: rest)) = .next ((s.setChannel ch
        { c with rb := (encodeStep w c.rb).2, out := c.out ++ [(encodeStep w c.rb).1], slot := none }).withTurns rest))
    ∧ (∀ (s : State) (ch : Nat) (c : Channel) (rest : List Turn),
      s.channel? ch = some c → c.fault = none → c.slot = some .rst →
      step (s.withTurns (.serve ch :: rest)) = .next ((s.setChannel ch { c with rb := 0, slot := none }).withTurns rest))
    ∧ (∀ (s : State) (symbol : Symbol), exec (.dec symbol) s = .next (s.emitWord (decodeSymbol symbol)))
    ∧ (∀ (s : State) (q : Request) (symbol : Symbol) (rest : List Turn), decode q = .ok (.dec symbol) →
      step (s.withTurns (.place q :: rest)) = .next ((s.emitWord (decodeSymbol symbol)).withTurns rest))
    ∧ (∀ (s t : State) (ch : Nat) (c d : Channel) (held arriving : RequestWord) (k : Nat), step s = .next t →
      s.channel? ch = some c → t.channel? ch = some d → c.fault = none →
      d.fault = some (.concurrentAccess held arriving k) →
      ∃ (first second : SlotRequest) (q : Request) (rest : List Turn),
        c.slot = some first ∧ held = first.requestWord ∧ arriving = second.requestWord ∧ k = ch
          ∧ (s.turns = .issue q :: rest ∨ s.turns = .place q :: rest) ∧ decode q = .ok (second.instr ch))
    ∧ (∀ s t : State, (∀ c ∈ s.channels, c.slot = none) → (∀ x ∈ s.turns, ∃ q, x = .issue q) → step s = .next t →
      (∀ d ∈ t.channels, d.slot = none) ∧ (∀ x ∈ t.turns, ∃ q, x = .issue q)
        ∧ ∀ ch c d held arriving k, s.channel? ch = some c → t.channel? ch = some d →
            d.fault = some (.concurrentAccess held arriving k) → c.fault = d.fault)

/-- R92 and R93: over any step a faulted instance stays exactly as it is, mark included; and a step that sets a fault mark
writes nothing else: not that instance's bias, trace or slot, not another instance, not `DOUT`, not the refusal mark. A state
with a fault mark is not final, and DEC goes on. -/
def Obligations.FaultsArePreciseAndNeverCleared : Prop :=
  (∀ (s t : State) (ch : Nat) (c : Channel) (f : Fault), step s = .next t → s.channel? ch = some c → c.fault = some f →
      t.channel? ch = some c)
    ∧ (∀ (s t : State) (ch : Nat) (c d : Channel) (f : Fault), step s = .next t → s.channel? ch = some c →
      c.fault = none → t.channel? ch = some d → d.fault = some f →
      d = { c with fault := some f } ∧ (∀ k, k ≠ ch → t.channel? k = s.channel? k)
        ∧ t.dout = s.dout ∧ t.refusalMark = s.refusalMark)
    ∧ (∀ (s : State) (ch : Nat) (c : Channel) (f : Fault) (w : Word), s.channel? ch = some c → c.fault = some f →
      exec (.enc ch w) s = .next s ∧ exec (.rst ch) s = .next s)
    ∧ (∀ (s : State) (ch : Nat) (c : Channel) (f : Fault) (symbol : Symbol), s.channel? ch = some c → c.fault = some f →
      s.final = false ∧ exec (.dec symbol) s = .next { s with dout := s.dout ++ [decodeSymbol symbol] })

/-- R45 and R90: which words are reserved; a reserved request, issued or placed, sets the refusal mark and nothing else; and the
mark is kept for the whole run. -/
def Obligations.ReservedRequestSetsTheRefusalMark : Prop :=
  (∀ (s : State) (q : Request) (rest : List Turn), isReserved q.word = true →
      s.turns = .issue q :: rest ∨ s.turns = .place q :: rest →
      step s = .next { s with turns := rest, refusalMark := some .reservedRequest })
    ∧ (∀ (s t : State) (r : RefusalReason), step s = .next t → s.refusalMark = some r → t.refusalMark = some r)
    ∧ (∀ s t : State, step s = .next t → s.refusalMark = none → t.refusalMark ≠ none →
      ∃ q rest, isReserved q.word = true ∧ (s.turns = .issue q :: rest ∨ s.turns = .place q :: rest))
    ∧ (∀ r : RequestWord, isReserved r = true ↔ r.extractLsb' 10 2 = 3#2
      ∨ (r.extractLsb' 10 2 = 0#2 ∧ r.extractLsb' 8 2 ≠ 0#2) ∨ (r.extractLsb' 10 2 = 2#2 ∧ r.extractLsb' 0 10 ≠ 0#10))

/-- R94: the order of the checks for an issued request, on an instance that is not faulted: reserved before occupied, occupied
before overflow, overflow before performing. -/
def Obligations.ChecksComeInTheRulesOrder : Prop :=
  ∀ (s : State) (q : Request) (c : Channel) (rest : List Turn), s.turns = .issue q :: rest →
    s.channel? q.ch = some c → c.fault = none →
    (isReserved q.word = true → step s = .next { s with turns := rest, refusalMark := some .reservedRequest })
      ∧ (∀ (w : Word) (held : SlotRequest), decode q = .ok (.enc q.ch w) → c.slot = some held →
        step s = .next ((s.setChannel q.ch (c.raiseFault (.concurrentAccess held.requestWord q.word q.ch))).withTurns rest))
      ∧ (∀ held : SlotRequest, decode q = .ok (.rst q.ch) → c.slot = some held →
        step s = .next ((s.setChannel q.ch (c.raiseFault (.concurrentAccess held.requestWord q.word q.ch))).withTurns rest))
      ∧ (∀ w : Word, decode q = .ok (.enc q.ch w) → c.slot = none → biasFits s.biasWidth (encodeStep w c.rb).2 = false →
        step s = .next ((s.setChannel q.ch
          (c.raiseFault (.biasOverflow q.word q.ch c.rb (encodeStep w c.rb).2))).withTurns rest))
      ∧ (∀ w : Word, decode q = .ok (.enc q.ch w) → c.slot = none → biasFits s.biasWidth (encodeStep w c.rb).2 = true →
        step s = .next ((s.setChannel q.ch
          ((c.writeBias (encodeStep w c.rb).2).emitSymbol (encodeStep w c.rb).1)).withTurns rest))
      ∧ (decode q = .ok (.rst q.ch) → c.slot = none →
        step s = .next ((s.setChannel q.ch (c.writeBias 0)).withTurns rest))

/-! ## Invariants -/

/-- R18's legal values: every step keeps every bias a value its register can hold, with at least one instance and a width that
is not 0 (log 12, DESIGN CHOICE). -/
def Obligations.StepKeepsBiasesLegal : Prop :=
  ∀ s t : State, s.legal = true → step s = .next t → t.legal = true

/-- R22 and R72: every step keeps every bias even. -/
def Obligations.StepKeepsBiasesEven : Prop :=
  ∀ s t : State, s.evenBiases = true → step s = .next t → t.evenBiases = true

/-- R89 and R92: every step keeps every fault mark true of its instance. -/
def Obligations.StepKeepsFaultMarksTrue : Prop :=
  ∀ s t : State, s.marksTrue → step s = .next t → t.marksTrue

/-- R19 and R99: a newly created machine, of any parameters: every instance has bias 0, no fault, an empty trace and an empty
slot; and RST, issued or taken from the slot, leaves bias 0 and the other three as the table says. -/
def Obligations.CreationAndRstLeaveTheTablesState : Prop :=
  (∀ p : Config, (State.create p).channels.length = p.numChannels
      ∧ ∀ ch c, (State.create p).channel? ch = some c → c.rb = 0 ∧ c.fault = none ∧ c.out = [] ∧ c.slot = none)
    ∧ (∀ ch c, State.reset.channel? ch = some c → c.rb = 0 ∧ c.fault = none ∧ c.out = [] ∧ c.slot = none)
    ∧ (∀ (s : State) (ch : Nat) (c : Channel), s.channel? ch = some c → c.fault = none → c.slot = none →
      ∃ t d, exec (.rst ch) s = .next t ∧ t.channel? ch = some d ∧ d.rb = 0 ∧ d.fault = c.fault ∧ d.out = c.out
        ∧ d.slot = none)
    ∧ (∀ (s : State) (ch : Nat) (c : Channel) (rest : List Turn), s.turns = .serve ch :: rest → s.channel? ch = some c →
      c.fault = none → c.slot = some .rst →
      ∃ t d, step s = .next t ∧ t.channel? ch = some d ∧ d.rb = 0 ∧ d.fault = c.fault ∧ d.out = c.out ∧ d.slot = none)
    ∧ (∀ (s : State) (ch : Nat) (c : Channel) (f : Fault), s.channel? ch = some c → c.fault = some f →
      exec (.rst ch) s = .next s)

/-- The three invariants hold at creation, for every choice of parameters R9 admits, and at reset (whose parameters are log 1's). -/
def Obligations.CreationMeetsTheInvariants : Prop :=
  (∀ p : Config, p.wf = true →
      (State.create p).legal = true ∧ (State.create p).evenBiases = true ∧ (State.create p).marksTrue)
    ∧ State.reset.legal = true ∧ State.reset.evenBiases = true ∧ State.reset.marksTrue

/-- R9 and R97: no step changes the width or the number of instances. -/
def Obligations.ParametersNeverChange : Prop :=
  ∀ s t : State, step s = .next t → t.biasWidth = s.biasWidth ∧ t.channels.length = s.channels.length

/-- R17: the traces are written only by emitting: over any step each `OUT` and `DOUT` is what it was with at most one value
more at the end, and at most one trace grows. -/
def Obligations.TracesOnlyGrowByOneValue : Prop :=
  ∀ s t : State, step s = .next t →
    (∃ more : List Word, t.dout = s.dout ++ more ∧ more.length ≤ 1)
      ∧ (∀ ch c d, s.channel? ch = some c → t.channel? ch = some d →
          ∃ more : List Symbol, d.out = c.out ++ more ∧ more.length ≤ 1
            ∧ (more ≠ [] → t.dout = s.dout ∧ ∀ k, k ≠ ch → t.channel? k = s.channel? k))

/-! ## The step, and runs -/

/-- R8: a step whose next move is an issued request that decodes to `i` is `exec i`, on the state with that request taken from
the stream; and an unfaulted instance served an occupied slot performs the slot's operation with the slot emptied, after which
the request is back in the slot only if that step faulted. (The stream and the moves are the model's, logs 2, 3 and 5.) -/
def Obligations.StepRunsTheDecodedRequest : Prop :=
  (∀ (s : State) (q : Request) (i : Instr) (rest : List Turn), s.turns = .issue q :: rest → decode q = .ok i →
      step s = exec i (s.withTurns rest))
    ∧ (∀ (s : State) (ch : Nat) (c : Channel) (op : SlotRequest) (rest : List Turn), s.turns = .serve ch :: rest →
      s.channel? ch = some c → c.fault = none → c.slot = some op →
      ∃ (t : State) (d : Channel),
        exec (op.instr ch) ((s.withTurns rest).setChannel ch { c with slot := none }) = .next t
          ∧ t.channel? ch = some d ∧ (d.fault = none → step s = .next t)
          ∧ (d.fault ≠ none → step s = .next (t.setChannel ch { d with slot := some op })))

/-- R91: placing a request in an empty slot and serving it does what issuing it does: the same observation, and the same state
unless it faulted. (The three moves are the model's, log 3.) -/
def Obligations.PlaceThenServeIsIssue : Prop :=
  ∀ (s : State) (ch : Nat) (c : Channel) (op : SlotRequest) (rest : List Turn),
    s.channel? ch = some c → c.fault = none → c.slot = none →
    ∃ t u : State,
      runSteps 1 (s.withTurns (.issue (encode (op.instr ch)) :: rest)) = .next t
        ∧ runSteps 2 (s.withTurns (.place (encode (op.instr ch)) :: .serve ch :: rest)) = .next u
        ∧ t.observe = u.observe ∧ t.turns = u.turns
        ∧ ((∀ d, t.channel? ch = some d → d.fault = none) → t = u)

/-- R98: with no request the machine holds its state; serving an instance with an empty slot, or a faulted one, changes nothing. -/
def Obligations.IdleMachineHoldsItsState : Prop :=
  (∀ s : State, s.turns = [] → step s = .next s)
    ∧ (∀ (s : State) (ch : Nat) (c : Channel) (rest : List Turn), s.turns = .serve ch :: rest → s.channel? ch = some c →
      c.slot = none ∨ c.fault ≠ none → step s = .next (s.withTurns rest))

/-- R88 and R106: every step completes, whatever words and symbols it is given: it never answers a fault, and the only refusal
is of an instance that does not exist (the model's, log 8). -/
def Obligations.EveryStepCompletes : Prop :=
  (∀ (s : State) (x : Turn) (rest : List Turn), s.turns = x :: rest → x.wf s.channels.length = true →
      ∃ t, step s = .next t)
    ∧ (∀ (s : State) (f : Fault), step s ≠ .fault f)
    ∧ (∀ (s : State) (r : Refusal), step s = .refused r →
      ∃ ch, r = .noSuchChannel ch ∧ s.channels.length ≤ ch)

/-- The model's choice, log 8 (R42 gives instance numbers below `NUM_CHANNELS`, and says nothing of others): ENC and RST to an
instance that does not exist are refused by name, and serving one too. -/
def Obligations.MissingInstanceIsRefused : Prop :=
  ∀ (s : State) (ch : Nat), s.channels.length ≤ ch →
    (∀ w : Word, exec (.enc ch w) s = .refused (.noSuchChannel ch))
      ∧ exec (.rst ch) s = .refused (.noSuchChannel ch)
      ∧ (∀ rest, s.turns = .serve ch :: rest → step s = .refused (.noSuchChannel ch))

/-- R33: the symbols of one instance appear in `OUT` in the order its words were issued, each encoded at the bias all earlier
ones left (R77). For every stream of words on an unbounded register, from every bias. -/
def Obligations.OutFollowsTheIssueOrder : Prop :=
  ∀ (ws : List Word) (s : State) (ch : Nat) (c : Channel) (rest : List Turn),
    s.biasWidth = none → s.channel? ch = some c → c.fault = none → c.slot = none →
    s.turns = issueAll ch (ws.map SlotRequest.enc) ++ rest →
    runSteps ws.length s = .next
      ((s.setChannel ch { c with rb := biasAfter c.rb ws, out := c.out ++ symbolsFrom c.rb ws }).withTurns rest)

/-- R104's sufficient condition, which the spec marks "[derived: from 41_dc_balancer.md rule R72]": after an RST, `n` words on
a register of width `W` with `10·n ≤ 2^(W-1) - 1` are all encoded, and none overflows. -/
def Obligations.ShortStreamsNeverOverflow : Prop :=
  ∀ (ws : List Word) (s : State) (ch W : Nat) (c : Channel) (rest : List Turn),
    s.biasWidth = some W → (10 * (ws.length : Int)) ≤ 2 ^ (W - 1) - 1 →
    s.channel? ch = some c → c.fault = none → c.slot = none →
    s.turns = issueAll ch (.rst :: ws.map SlotRequest.enc) ++ rest →
    runSteps (ws.length + 1) s = .next
      ((s.setChannel ch { c with rb := biasAfter 0 ws, out := c.out ++ symbolsFrom 0 ws }).withTurns rest)

/-- R107: marks last to the end of a run, so a run that ends final never held a fault or a refusal: if the state after `k` more
steps is clean, so is the state before them. -/
def Obligations.FinalRunsWereAlwaysClean : Prop :=
  (∀ (k : Nat) (s t : State), runSteps k s = .next t → t.clean = true → s.clean = true)
    ∧ (∀ (k : Nat) (s t : State), runSteps k s = .next t → t.final = true → s.clean = true)

/-! ## Encoding (30_encoding.md) -/

/-- R43, R44 and R45: the three rows exclude each other, a request that matches a row decodes to the row's operation with its
operand taken unchanged, and the requests that match none are exactly the reserved ones, which are refused. -/
def Obligations.DecoderFollowsTheThreeRows : Prop :=
  ∀ q : Request,
    ¬(encRow.selects q.word = true ∧ decRow.selects q.word = true)
      ∧ ¬(encRow.selects q.word = true ∧ rstRow.selects q.word = true)
      ∧ ¬(decRow.selects q.word = true ∧ rstRow.selects q.word = true)
      ∧ (q.word &&& 0xF00#12 = 0x000#12 → decode q = .ok (.enc q.ch (q.word.extractLsb' 0 8)))
      ∧ (q.word &&& 0xC00#12 = 0x400#12 → decode q = .ok (.dec (q.word.extractLsb' 0 10)))
      ∧ (q.word &&& 0xFFF#12 = 0x800#12 → decode q = .ok (.rst q.ch))
      ∧ (isReserved q.word = true ↔ decode q = .error .reservedRequest)
      ∧ (isReserved q.word = true ↔ q.word.extractLsb' 10 2 = 3#2
          ∨ (q.word.extractLsb' 10 2 = 0#2 ∧ q.word.extractLsb' 8 2 ≠ 0#2)
          ∨ (q.word.extractLsb' 10 2 = 2#2 ∧ q.word.extractLsb' 0 10 ≠ 0#10))

/-- R43: encoding an operation and decoding it gives the operation back, for every operation and every operand; and every
request that decodes is the encoding of what it decodes to, word for word. (A decoded DEC has no instance number, R87.) -/
def Obligations.DecodingUndoesRequestEncoding : Prop :=
  (∀ i : Instr, decode (encode i) = .ok i)
    ∧ (∀ (q : Request) (i : Instr), decode q = .ok i →
        encodeWord i = q.word ∧ ((∀ x, i ≠ .dec x) → encode i = q))

/-- R43 on words written out from its table (95_test_vectors.md T9). -/
def Obligations.WordsOfTheTableDecode : Prop :=
  decode ⟨0, 0b000000000000#12⟩ = .ok (.enc 0 0x00#8) ∧ decode ⟨2, 0b000011111111#12⟩ = .ok (.enc 2 0xFF#8)
    ∧ decode ⟨0, 0b010000000000#12⟩ = .ok (.dec 0x000#10) ∧ decode ⟨1, 0b011101010100#12⟩ = .ok (.dec 0x354#10)
    ∧ decode ⟨1, 0b100000000000#12⟩ = .ok (.rst 1)
    ∧ decode ⟨0, 0b000100000000#12⟩ = .error .reservedRequest ∧ decode ⟨0, 0b100000000001#12⟩ = .error .reservedRequest
    ∧ decode ⟨0, 0b110000000000#12⟩ = .error .reservedRequest

/-- R47: an operand in range assembles to its operation, one out of range is an error, RST takes none, and the channel has no
effect on DEC; a line without a channel addresses instance 0. -/
def Obligations.AssemblerChecksTheOperandRange : Prop :=
  (∀ (ch n : Nat) (operand : List Char), readOperand operand = some n →
      (n ≤ 0xFF → assembleWords ch [['E', 'N', 'C'], operand] = .ok (.enc ch (BitVec.ofNat 8 n)))
        ∧ (0xFF < n → assembleWords ch [['E', 'N', 'C'], operand] = .error .operandOutOfRange)
        ∧ (n ≤ 0x3FF → ∀ k, assembleWords k [['D', 'E', 'C'], operand] = .ok (.dec (BitVec.ofNat 10 n)))
        ∧ (0x3FF < n → assembleWords ch [['D', 'E', 'C'], operand] = .error .operandOutOfRange))
    ∧ (∀ ch : Nat, assembleWords ch [['R', 'S', 'T']] = .ok (.rst ch))
    ∧ assembleLine ['E', 'N', 'C', ' ', '0', 'x', 'F', 'F'] = .ok (some (encode (.enc 0 0xFF#8)))
    ∧ assembleLine ['c', '2', ':', ' ', 'R', 'S', 'T', ' ', ';', ' ', 'x'] = .ok (some (encode (.rst 2)))
    ∧ assembleLine ['c', '1', ':', ' ', 'D', 'E', 'C', ' ', '0', 'b', '1', '0'] = .ok (some (encode (.dec 0x002#10)))
end

