-- ==== Sys2Proof/Laws/BitOps.lean ====
section
/-! SUPPORT. The small lemmas of the bit counts and of the symbol's assembly. -/

namespace Sys2Proof.Machine

open Sys2Proof

/-- Bit `i` of an assembled byte. -/
theorem byteOfBits_getLsbD (f : Nat → Bool) (i : Nat) (h : i < 8) : (byteOfBits f).getLsbD i = f i := by
  have append : ∀ {n : Nat} (v : BitVec n) (b : Bool), (v ++ BitVec.ofBool b).getLsbD 0 = b
      ∧ ∀ k, (v ++ BitVec.ofBool b).getLsbD (k + 1) = v.getLsbD k := by
    intro n v b
    exact ⟨BitVec.getLsbD_append.trans (by simp), fun k => BitVec.getLsbD_append.trans (by simp)⟩
  unfold byteOfBits
  interval_cases i
  · exact (append _ _).1
  all_goals
    repeat refine ((append _ _).2 _).trans ?_
    first
      | exact (append _ _).1
      | simp

/-- A count over the first `k` bits is at most `k`. -/
theorem onesBelow_le {n : Nat} (v : BitVec n) (k : Nat) : onesBelow v k ≤ k := by
  induction k with
  | zero => simp [onesBelow]
  | succ k ih =>
    have := Bool.toNat_le (v.getLsbD k)
    simp only [onesBelow]
    omega

/-- A bias is twice the ones less the width. -/
theorem bitBias_eq {n : Nat} (v : BitVec n) : bitBias v = 2 * (countOnes v : Int) - n := by
  simp only [bitBias]
  omega

/-- A count depends on the bits counted alone. -/
theorem onesBelow_congr {n m : Nat} (v : BitVec n) (u : BitVec m) (k : Nat)
    (h : ∀ i, i < k → v.getLsbD i = u.getLsbD i) : onesBelow v k = onesBelow u k := by
  induction k with
  | zero => rfl
  | succ k ih => simp only [onesBelow, ih (fun i hi => h i (by omega)), h k (by omega)]

/-- The invert flag of an assembled symbol. -/
@[simp] theorem symbolInvert_makeSymbol (inv sel : Bool) (d : BitVec 8) :
    symbolInvert (makeSymbol inv sel d) = inv := by
  revert d
  cases inv <;> cases sel <;> decide +kernel

/-- The selector bit of an assembled symbol. -/
@[simp] theorem symbolSelector_makeSymbol (inv sel : Bool) (d : BitVec 8) :
    symbolSelector (makeSymbol inv sel d) = sel := by
  revert d
  cases inv <;> cases sel <;> decide +kernel

/-- The data bits of an assembled symbol. -/
@[simp] theorem symbolData_makeSymbol (inv sel : Bool) (d : BitVec 8) : symbolData (makeSymbol inv sel d) = d := by
  revert d
  cases inv <;> cases sel <;> decide +kernel

/-- Inverting twice gives the value back. -/
@[simp] theorem invertIf_invertIf (inv : Bool) (v : BitVec 8) : invertIf inv (invertIf inv v) = v := by
  cases inv <;> simp [invertIf]

end Sys2Proof.Machine
end

