-- ==== Sys2Proof/Laws/State.lean ====
section
/-! SUPPORT. The small lemmas of the state's updates: each field after each update, so that no later proof unfolds one; and
reading an instance after replacing one. -/

namespace Sys2Proof.Machine

open Sys2Proof

section ChannelUpdates

variable (c : Channel) (b : Int) (x : Symbol) (f : Fault) (o : Option SlotRequest)

@[simp] theorem writeBias_rb : (c.writeBias b).rb = b := rfl
@[simp] theorem writeBias_fault : (c.writeBias b).fault = c.fault := rfl
@[simp] theorem writeBias_out : (c.writeBias b).out = c.out := rfl
@[simp] theorem writeBias_slot : (c.writeBias b).slot = c.slot := rfl
@[simp] theorem emitSymbol_rb : (c.emitSymbol x).rb = c.rb := rfl
@[simp] theorem emitSymbol_fault : (c.emitSymbol x).fault = c.fault := rfl
@[simp] theorem emitSymbol_out : (c.emitSymbol x).out = c.out ++ [x] := rfl
@[simp] theorem emitSymbol_slot : (c.emitSymbol x).slot = c.slot := rfl
@[simp] theorem raiseFault_rb : (c.raiseFault f).rb = c.rb := rfl
@[simp] theorem raiseFault_fault : (c.raiseFault f).fault = some f := rfl
@[simp] theorem raiseFault_out : (c.raiseFault f).out = c.out := rfl
@[simp] theorem raiseFault_slot : (c.raiseFault f).slot = c.slot := rfl
@[simp] theorem fillSlot_rb : (c.fillSlot o).rb = c.rb := rfl
@[simp] theorem fillSlot_fault : (c.fillSlot o).fault = c.fault := rfl
@[simp] theorem fillSlot_out : (c.fillSlot o).out = c.out := rfl
@[simp] theorem fillSlot_slot : (c.fillSlot o).slot = o := rfl

end ChannelUpdates

section StateUpdates

variable (s : State) (ch k : Nat) (c d : Channel) (w : Word) (r : RefusalReason) (t : Turn)

@[simp] theorem setChannel_biasWidth : (s.setChannel ch c).biasWidth = s.biasWidth := rfl
@[simp] theorem setChannel_dout : (s.setChannel ch c).dout = s.dout := rfl
@[simp] theorem setChannel_refusalMark : (s.setChannel ch c).refusalMark = s.refusalMark := rfl
@[simp] theorem setChannel_turns : (s.setChannel ch c).turns = s.turns := rfl
@[simp] theorem setChannel_channels : (s.setChannel ch c).channels = s.channels.set ch c := rfl
@[simp] theorem emitWord_biasWidth : (s.emitWord w).biasWidth = s.biasWidth := rfl
@[simp] theorem emitWord_channels : (s.emitWord w).channels = s.channels := rfl
@[simp] theorem emitWord_dout : (s.emitWord w).dout = s.dout ++ [w] := rfl
@[simp] theorem emitWord_refusalMark : (s.emitWord w).refusalMark = s.refusalMark := rfl
@[simp] theorem emitWord_turns : (s.emitWord w).turns = s.turns := rfl
@[simp] theorem emitWord_channel? : (s.emitWord w).channel? k = s.channel? k := rfl
@[simp] theorem refuse_biasWidth : (s.refuse r).biasWidth = s.biasWidth := rfl
@[simp] theorem refuse_channels : (s.refuse r).channels = s.channels := rfl
@[simp] theorem refuse_dout : (s.refuse r).dout = s.dout := rfl
@[simp] theorem refuse_refusalMark : (s.refuse r).refusalMark = some r := rfl
@[simp] theorem refuse_turns : (s.refuse r).turns = s.turns := rfl
@[simp] theorem refuse_channel? : (s.refuse r).channel? k = s.channel? k := rfl
@[simp] theorem withTurns_biasWidth (ts : List Turn) : (s.withTurns ts).biasWidth = s.biasWidth := rfl
@[simp] theorem withTurns_channels (ts : List Turn) : (s.withTurns ts).channels = s.channels := rfl
@[simp] theorem withTurns_dout (ts : List Turn) : (s.withTurns ts).dout = s.dout := rfl
@[simp] theorem withTurns_refusalMark (ts : List Turn) : (s.withTurns ts).refusalMark = s.refusalMark := rfl
@[simp] theorem withTurns_turns (ts : List Turn) : (s.withTurns ts).turns = ts := rfl
@[simp] theorem withTurns_channel? (ts : List Turn) : (s.withTurns ts).channel? k = s.channel? k := rfl
@[simp] theorem withTurns_withTurns (ts us : List Turn) : (s.withTurns ts).withTurns us = s.withTurns us := rfl
@[simp] theorem withTurns_self : s.withTurns s.turns = s := rfl
@[simp] theorem pushTurn_eq : s.pushTurn t = s.withTurns (t :: s.turns) := rfl

/-- The stream and the instances are apart: their updates commute. -/
theorem setChannel_withTurns (ts : List Turn) : (s.withTurns ts).setChannel ch c = (s.setChannel ch c).withTurns ts := rfl

@[simp] theorem setChannel_length : (s.setChannel ch c).channels.length = s.channels.length := List.length_set

/-- An instance exists exactly when its number is below the number of instances. -/
theorem channel?_isSome_iff : (s.channel? ch).isSome ↔ ch < s.channels.length := by
  simp [State.channel?]

theorem channel?_eq_none_iff : s.channel? ch = none ↔ s.channels.length ≤ ch := by
  simp [State.channel?]

theorem lt_of_channel? (h : s.channel? ch = some c) : ch < s.channels.length :=
  (channel?_isSome_iff s ch).mp (by simp [h])

/-- Reading the instance just replaced. -/
theorem setChannel_channel?_self (h : s.channel? ch = some c) : (s.setChannel ch d).channel? ch = some d := by
  have := lt_of_channel? s ch c h
  simp [State.channel?, State.setChannel, this]

/-- Reading another instance. -/
theorem setChannel_channel?_other (h : k ≠ ch) : (s.setChannel ch d).channel? k = s.channel? k := by
  simp [State.channel?, State.setChannel, Ne.symm h]

/-- The later of two replacements of one instance is the one that counts. -/
@[simp] theorem setChannel_setChannel : (s.setChannel ch c).setChannel ch d = s.setChannel ch d := by
  simp [State.setChannel]

/-- Replacing an instance by itself changes nothing. -/
theorem setChannel_eq_self (h : s.channel? ch = some c) : s.setChannel ch c = s := by
  obtain ⟨hk, rfl⟩ := List.getElem?_eq_some_iff.mp h
  simp [State.setChannel]

/-- Replacements of two instances commute. -/
theorem setChannel_comm (h : ch ≠ k) : (s.setChannel ch c).setChannel k d = (s.setChannel k d).setChannel ch c := by
  simp [State.setChannel, List.set_comm _ _ h]

end StateUpdates

end Sys2Proof.Machine
end

