-- ==== Sys2Proof/Laws/Ops.lean ====
section
/-! SUPPORT. What a request to an instance can do, said once: `onChannel`, then ENC and RST by way of it, then taking a request
from a slot. The provers cite these instead of unfolding the operations. -/

namespace Sys2Proof.Machine

open Sys2Proof

variable {s t : State} {ch : Nat} {r : RequestWord} {p : Channel → Channel} {c : Channel}

/-- A number no instance has is refused (log 8). -/
theorem onChannel_missing (h : s.channel? ch = none) : onChannel s ch r p = .refused (.noSuchChannel ch) := by
  simp [onChannel, h]

/-- A faulted instance takes no step (R92). -/
theorem onChannel_faulted {f : Fault} (h : s.channel? ch = some c) (hf : c.fault = some f) :
    onChannel s ch r p = .next s := by
  simp [onChannel, h, hf]

/-- An occupied slot faults (R91). -/
theorem onChannel_occupied {held : SlotRequest} (h : s.channel? ch = some c) (hf : c.fault = none)
    (hs : c.slot = some held) :
    onChannel s ch r p = .next (s.setChannel ch (c.raiseFault (.concurrentAccess held.requestWord r ch))) := by
  simp [onChannel, h, hf, hs]

/-- Otherwise the request is performed. -/
theorem onChannel_free (h : s.channel? ch = some c) (hf : c.fault = none) (hs : c.slot = none) :
    onChannel s ch r p = .next (s.setChannel ch (p c)) := by
  simp [onChannel, h, hf, hs]

/-- Everything a request to an instance can lead to. -/
theorem onChannel_next (h : onChannel s ch r p = .next t) :
    ∃ c, s.channel? ch = some c ∧
      ((c.fault ≠ none ∧ t = s)
        ∨ (c.fault = none ∧ ∃ held, c.slot = some held ∧
            t = s.setChannel ch (c.raiseFault (.concurrentAccess held.requestWord r ch)))
        ∨ (c.fault = none ∧ c.slot = none ∧ t = s.setChannel ch (p c))) := by
  cases hc : s.channel? ch with
  | none => simp [onChannel_missing hc] at h
  | some c =>
    refine ⟨c, rfl, ?_⟩
    cases hf : c.fault with
    | some f =>
      rw [onChannel_faulted hc hf] at h
      cases h
      exact .inl ⟨by simp, rfl⟩
    | none =>
      cases hs : c.slot with
      | some held =>
        rw [onChannel_occupied hc hf hs] at h
        cases h
        exact .inr (.inl ⟨rfl, held, rfl, rfl⟩)
      | none =>
        rw [onChannel_free hc hf hs] at h
        cases h
        exact .inr (.inr ⟨rfl, rfl, rfl⟩)

/-- A request to an instance never stops the machine with a fault (log 4). -/
theorem onChannel_ne_fault (f : Fault) : onChannel s ch r p ≠ .fault f := by
  unfold onChannel
  split
  · simp
  · split <;> simp

/-- What ENC does to an instance whose new bias fits (R75). -/
theorem encodeNext_fits {width : Option Nat} {w : Word} (h : biasFits width (encodeStep w c.rb).2 = true) :
    encodeNext width ch w c = (c.writeBias (encodeStep w c.rb).2).emitSymbol (encodeStep w c.rb).1 := by
  simp [encodeNext, h]

/-- What ENC does to an instance whose new bias does not fit (R76). -/
theorem encodeNext_overflows {width : Option Nat} {w : Word} (h : biasFits width (encodeStep w c.rb).2 = false) :
    encodeNext width ch w c
      = c.raiseFault (.biasOverflow (encodeWord (.enc ch w)) ch c.rb (encodeStep w c.rb).2) := by
  simp [encodeNext, h]

/-- ENC never touches the slot. -/
@[simp] theorem encodeNext_slot (width : Option Nat) (w : Word) : (encodeNext width ch w c).slot = c.slot := by
  unfold encodeNext
  dsimp only
  split <;> rfl

/-- What an ENC or an RST does to its instance once it is performed. -/
def slotEffect (width : Option Nat) (ch : Nat) : SlotRequest → Channel → Channel
  | .enc w => encodeNext width ch w
  | .rst => Channel.writeBias biasReset

/-- A slot's request, as an operation of the instance `ch`, is what `onChannel` performs. -/
theorem exec_slotRequest (op : SlotRequest) :
    exec (op.instr ch) s = onChannel s ch op.requestWord (slotEffect s.biasWidth ch op) := by
  cases op <;> rfl

/-- An ENC or an RST leaves the slot as it is. -/
@[simp] theorem slotEffect_slot (width : Option Nat) (op : SlotRequest) :
    (slotEffect width ch op c).slot = c.slot := by
  cases op with
  | enc w => exact encodeNext_slot width w
  | rst => rfl

/-- No operation stops the machine with a fault (log 4). -/
theorem exec_ne_fault (i : Instr) (f : Fault) : exec i s ≠ .fault f := by
  cases i with
  | enc ch w => exact onChannel_ne_fault f
  | dec x => simp [exec, execDec]
  | rst ch => exact onChannel_ne_fault f

end Sys2Proof.Machine
end

