-- ==== Sys2Proof/Laws/PerInstr.lean ====
section
/-! SUPPORT. One fact about every operation as it is written: its request word matches the row of spec/30_encoding.md R43
that stands for it. -/

namespace Sys2Proof.Laws.TableRow

open Sys2Proof

/-- The row of R43's table for an operation. -/
def rowOf : Instr → Row
  | .enc _ _ => encRow
  | .dec _ => decRow
  | .rst _ => rstRow

/-- The word of the operation is in its row, and is not reserved (R43, R45). -/
def Statement (i : Instr) : Prop := (rowOf i).selects (encodeWord i) = true ∧ isReserved (encodeWord i) = false

/-- No reserved word is of a row's form, whatever its operand. -/
theorem enc_words : ∀ w : Word, encRow.selects (0b0000#4 ++ w) = true ∧ isReserved (0b0000#4 ++ w) = false := by
  decide +kernel

theorem dec_words : ∀ x : Symbol, decRow.selects (0b01#2 ++ x) = true ∧ isReserved (0b01#2 ++ x) = false := by
  decide +kernel

theorem enc (ch : Nat) (w : Word) : Statement (.enc ch w) := enc_words w

theorem dec (x : Symbol) : Statement (.dec x) := dec_words x

theorem rst (ch : Nat) : Statement (.rst ch) :=
  show rstRow.selects 0x800#12 = true ∧ isReserved 0x800#12 = false by decide

end Sys2Proof.Laws.TableRow
end

