-- ==== Sys2Proof/Laws/Step.lean ====
section
/-! SUPPORT. What a step can do, said once: an inversion lemma for each move and one for the step. -/

namespace Sys2Proof.Machine

open Sys2Proof

variable {s t : State} {ch : Nat}

/-- With no move left the machine holds. -/
theorem step_idle (h : s.turns = []) : step s = .next s := by
  simp [step, State.popTurn, h]

/-- With a move left the step is that move. -/
theorem step_turn {x : Turn} {rest : List Turn} (h : s.turns = x :: rest) :
    step s = runTurn x (s.withTurns rest) := by
  simp [step, State.popTurn, h]

/-- A step is holding or a move. -/
theorem step_cases (h : step s = .next t) :
    (s.turns = [] ∧ t = s) ∨ ∃ x rest, s.turns = x :: rest ∧ runTurn x (s.withTurns rest) = .next t := by
  cases hs : s.turns with
  | nil =>
    rw [step_idle hs] at h
    cases h
    exact .inl ⟨rfl, rfl⟩
  | cons x rest => exact .inr ⟨x, rest, rfl, by rwa [step_turn hs] at h⟩

/-- An issued request is performed or refused. -/
theorem issueRequest_cases {q : Request} (h : issueRequest q s = .next t) :
    (∃ i, decode q = .ok i ∧ exec i s = .next t) ∨ ∃ r, decode q = .error r ∧ t = s.refuse r := by
  unfold issueRequest at h
  split at h
  · exact .inl ⟨_, by assumption, h⟩
  · cases h
    exact .inr ⟨_, by assumption, rfl⟩

/-- A placed request goes to a slot, to the decoder, or is refused. -/
theorem placeRequest_cases {q : Request} (h : placeRequest q s = .next t) :
    (∃ ch op, decode q = .ok (op.instr ch) ∧ onChannel s ch op.requestWord (Channel.fillSlot (some op)) = .next t)
      ∨ (∃ x, decode q = .ok (.dec x) ∧ t = s.emitWord (decodeSymbol x))
      ∨ ∃ r, decode q = .error r ∧ t = s.refuse r := by
  unfold placeRequest at h
  split at h
  · exact .inl ⟨_, .enc _, by assumption, h⟩
  · exact .inl ⟨_, .rst, by assumption, h⟩
  · cases h
    exact .inr (.inl ⟨_, by assumption, rfl⟩)
  · cases h
    exact .inr (.inr ⟨_, by assumption, rfl⟩)

/-- A slot's request, taken from the slot: the instance is free, so its operation is performed on the emptied instance. -/
theorem exec_taken {c : Channel} (op : SlotRequest) (h : s.channel? ch = some c) (hf : c.fault = none) :
    exec (op.instr ch) (s.setChannel ch (c.fillSlot none)) =
      .next (s.setChannel ch (slotEffect s.biasWidth ch op (c.fillSlot none))) := by
  rw [exec_slotRequest, onChannel_free (setChannel_channel?_self s ch c _ h) (by simpa using hf) (by simp)]
  simp

/-- Serving an instance: it holds (faulted, or its slot empty); or it takes an ENC that fits, an ENC that overflows, or an RST.
An ENC that overflows leaves its request in the slot (log 5). -/
theorem serveSlot_cases (h : serveSlot ch s = .next t) :
    ∃ c, s.channel? ch = some c ∧
      (((c.fault ≠ none ∨ c.slot = none) ∧ t = s)
        ∨ (c.fault = none ∧ ∃ w, c.slot = some (.enc w) ∧
            ((biasFits s.biasWidth (encodeStep w c.rb).2 = true ∧ t = s.setChannel ch
                (((c.fillSlot none).writeBias (encodeStep w c.rb).2).emitSymbol (encodeStep w c.rb).1))
              ∨ (biasFits s.biasWidth (encodeStep w c.rb).2 = false ∧ t = s.setChannel ch
                (c.raiseFault (.biasOverflow (encodeWord (.enc ch w)) ch c.rb (encodeStep w c.rb).2)))))
        ∨ (c.fault = none ∧ c.slot = some .rst ∧ t = s.setChannel ch ((c.fillSlot none).writeBias biasReset))) := by
  unfold serveSlot at h
  cases hc : s.channel? ch with
  | none => simp [hc] at h
  | some c =>
    refine ⟨c, rfl, ?_⟩
    simp only [hc] at h
    rcases hf : c.fault with _ | f <;> rcases hs : c.slot with _ | op <;> simp only [hf, hs] at h
    · cases h
      exact .inl ⟨.inr rfl, rfl⟩
    · rw [exec_taken op hc hf] at h
      cases h
      have self := fun d => setChannel_channel?_self s ch c d hc
      cases op with
      | rst =>
        refine .inr (.inr ⟨rfl, rfl, ?_⟩)
        simp [keepIfFaulted, slotEffect, self, hf]
      | enc w =>
        refine .inr (.inl ⟨rfl, w, rfl, ?_⟩)
        cases hb : biasFits s.biasWidth (encodeStep w c.rb).2 with
        | true =>
          rw [slotEffect, encodeNext_fits (c := c.fillSlot none) (by simpa using hb)]
          refine .inl ⟨rfl, ?_⟩
          simp [keepIfFaulted, self, hf]
        | false =>
          rw [slotEffect, encodeNext_overflows (c := c.fillSlot none) (by simpa using hb)]
          refine .inr ⟨rfl, ?_⟩
          simp [keepIfFaulted, self]
          simp [Channel.fillSlot, Channel.raiseFault, hs]
    · cases h
      exact .inl ⟨.inl (by simp), rfl⟩
    · cases h
      exact .inl ⟨.inl (by simp), rfl⟩

/-- Everything a step can do to the instances, the traces and the marks: hold; refuse; emit a word; or change one instance,
which was not faulted, in one of five ways: a concurrent access, an overflow, a slot filled, a word encoded, or a reset (the
last two also emptying the slot where the request came from it). -/
inductive Effect (s t : State) : Prop where
  | hold (channels : t.channels = s.channels) (dout : t.dout = s.dout) (mark : t.refusalMark = s.refusalMark)
  | refuse (r : RefusalReason) (channels : t.channels = s.channels) (dout : t.dout = s.dout)
      (mark : t.refusalMark = some r)
  | word (w : Word) (channels : t.channels = s.channels) (dout : t.dout = s.dout ++ [w])
      (mark : t.refusalMark = s.refusalMark)
  | channel (ch : Nat) (c d : Channel) (here : s.channel? ch = some c) (free : c.fault = none)
      (channels : t.channels = s.channels.set ch d) (dout : t.dout = s.dout) (mark : t.refusalMark = s.refusalMark)
      (how : (∃ held op : SlotRequest, c.slot = some held ∧
                d = c.raiseFault (.concurrentAccess held.requestWord op.requestWord ch))
            ∨ (∃ w, biasFits s.biasWidth (encodeStep w c.rb).2 = false ∧
                d = c.raiseFault (.biasOverflow (encodeWord (.enc ch w)) ch c.rb (encodeStep w c.rb).2))
            ∨ (∃ op, c.slot = none ∧ d = c.fillSlot (some op))
            ∨ (∃ w, biasFits s.biasWidth (encodeStep w c.rb).2 = true ∧
                d = ((c.fillSlot none).writeBias (encodeStep w c.rb).2).emitSymbol (encodeStep w c.rb).1)
            ∨ d = (c.fillSlot none).writeBias biasReset)

theorem fillSlot_none_of_empty {c : Channel} (h : c.slot = none) : c.fillSlot none = c := by
  simp [Channel.fillSlot, ← h]

/-- An operation's effect. -/
theorem exec_effect {i : Instr} (h : exec i s = .next t) :
    Effect s t ∧ t.biasWidth = s.biasWidth ∧ t.turns = s.turns := by
  have slot : ∀ (ch : Nat) (op : SlotRequest), exec (op.instr ch) s = .next t →
      Effect s t ∧ t.biasWidth = s.biasWidth ∧ t.turns = s.turns := by
    intro ch op h
    rw [exec_slotRequest] at h
    obtain ⟨c, hc, ⟨-, rfl⟩ | ⟨hf, held, hs, rfl⟩ | ⟨hf, hs, rfl⟩⟩ := onChannel_next h
    · exact ⟨.hold rfl rfl rfl, rfl, rfl⟩
    · exact ⟨.channel ch c _ hc hf rfl rfl rfl (.inl ⟨held, op, hs, rfl⟩), rfl, rfl⟩
    · refine ⟨.channel ch c _ hc hf rfl rfl rfl ?_, rfl, rfl⟩
      cases op with
      | rst => exact .inr (.inr (.inr (.inr (by rw [fillSlot_none_of_empty hs]; rfl))))
      | enc w =>
        cases hb : biasFits s.biasWidth (encodeStep w c.rb).2 with
        | true => exact .inr (.inr (.inr (.inl ⟨w, hb, by rw [fillSlot_none_of_empty hs]; exact encodeNext_fits hb⟩)))
        | false => exact .inr (.inl ⟨w, hb, encodeNext_overflows hb⟩)
  cases i with
  | enc ch w => exact slot ch (.enc w) h
  | rst ch => exact slot ch .rst h
  | dec x =>
    cases h
    exact ⟨.word _ rfl rfl rfl, rfl, rfl⟩

/-- A step's effect, and what it leaves of the stream. -/
theorem step_effect (h : step s = .next t) :
    Effect s t ∧ t.biasWidth = s.biasWidth ∧ t.turns = s.turns.tail := by
  obtain ⟨hs, rfl⟩ | ⟨x, rest, hs, h⟩ := step_cases h
  · exact ⟨.hold rfl rfl rfl, rfl, by simp [hs]⟩
  · suffices Effect (s.withTurns rest) t ∧ t.biasWidth = s.biasWidth ∧ t.turns = rest by
      obtain ⟨e, hb, ht⟩ := this
      refine ⟨?_, hb, by simp [hs, ht]⟩
      cases e with
      | hold a b c => exact .hold a b c
      | refuse r a b c => exact .refuse r a b c
      | word w a b c => exact .word w a b c
      | channel ch c d a b e f g how => exact .channel ch c d a b e f g how
    cases x with
    | issue q =>
      obtain ⟨i, -, h⟩ | ⟨r, -, rfl⟩ := issueRequest_cases h
      · exact exec_effect h
      · exact ⟨.refuse r rfl rfl rfl, rfl, rfl⟩
    | place q =>
      obtain ⟨ch, op, -, h⟩ | ⟨x, -, rfl⟩ | ⟨r, -, rfl⟩ := placeRequest_cases h
      · obtain ⟨c, hc, ⟨-, rfl⟩ | ⟨hf, held, hs, rfl⟩ | ⟨hf, hs, rfl⟩⟩ := onChannel_next h
        · exact ⟨.hold rfl rfl rfl, rfl, rfl⟩
        · exact ⟨.channel ch c _ hc hf rfl rfl rfl (.inl ⟨held, op, hs, rfl⟩), rfl, rfl⟩
        · exact ⟨.channel ch c _ hc hf rfl rfl rfl (.inr (.inr (.inl ⟨op, hs, rfl⟩))), rfl, rfl⟩
      · exact ⟨.word _ rfl rfl rfl, rfl, rfl⟩
      · exact ⟨.refuse r rfl rfl rfl, rfl, rfl⟩
    | serve ch =>
      obtain ⟨c, hc, ⟨-, rfl⟩ | ⟨hf, w, -, ⟨hb, rfl⟩ | ⟨hb, rfl⟩⟩ | ⟨hf, -, rfl⟩⟩ := serveSlot_cases h
      · exact ⟨.hold rfl rfl rfl, rfl, rfl⟩
      · exact ⟨.channel ch c _ hc hf rfl rfl rfl (.inr (.inr (.inr (.inl ⟨w, hb, rfl⟩)))), rfl, rfl⟩
      · exact ⟨.channel ch c _ hc hf rfl rfl rfl (.inr (.inl ⟨w, hb, rfl⟩)), rfl, rfl⟩
      · exact ⟨.channel ch c _ hc hf rfl rfl rfl (.inr (.inr (.inr (.inr rfl)))), rfl, rfl⟩

end Sys2Proof.Machine
end

