-- ==== Sys2Proof/Tests/Slice0.lean ====
section
/-! SUPPORT. Tests of the model, each a named theorem, with expected results from spec/ (95_test_vectors.md and the rules' own
examples), and after them, for each statement with hypotheses, a state and operands that meet them. -/

namespace Sys2Proof.Tests

open Sys2Proof Sys2Proof.Machine

/-! ## Helpers -/

/-- An instance with the bias `b` and nothing else. -/
def chan (b : Int) : Channel := { Channel.created with rb := b }

/-- A machine of width `width` with the instances `cs` and the moves `ts` to come. -/
def mach (width : Option Nat) (cs : List Channel) (ts : List Turn) : State :=
  { biasWidth := width, channels := cs, dout := [], refusalMark := none, turns := ts }

/-- The next state of an answer, if it has one. -/
def nextOf : Answer → Option State
  | .next s => some s
  | _ => none

theorem of_nextOf {a : Answer} {t : State} (h : nextOf a = some t) : a = .next t := by
  cases a <;> simp_all [nextOf]

/-- A fault mark to start from: an overflow below the range of a 5-bit register (T10). -/
def overflowMark : Fault := .biasOverflow 0x000#12 0 (-16) (-24)

/-! ## Well-formedness refuses ill-formed terms -/

theorem test_wf_refuses_enc_to_missing_instance : (Instr.enc 3 0x00#8).wf 3 = false ∧ (Instr.enc 2 0x00#8).wf 3 = true := by
  decide
theorem test_wf_refuses_rst_to_missing_instance : (Instr.rst 3).wf 3 = false ∧ (Instr.rst 2).wf 3 = true := by decide
theorem test_wf_refuses_request_to_missing_instance : Request.wf 3 ⟨3, 0x000#12⟩ = false := by decide
theorem test_wf_refuses_no_channels : (Config.mk none 0).wf = false := by decide
theorem test_wf_refuses_width_zero : (Config.mk (some 0) 1).wf = false ∧ (Config.mk (some 1) 1).wf = true := by decide

/-! ## Decoding, on words written bit by bit from R43 and R45 -/

theorem test_decode_enc : decode ⟨2, 0b000010110100#12⟩ = .ok (.enc 2 0b10110100#8) := by decide
theorem test_decode_dec : decode ⟨0, 0b011001010100#12⟩ = .ok (.dec 0b1001010100#10) := by decide
theorem test_decode_rst : decode ⟨1, 0b100000000000#12⟩ = .ok (.rst 1) := by decide
theorem test_decode_reserved_operation : decode ⟨0, 0b110000000000#12⟩ = .error .reservedRequest := by decide
theorem test_decode_reserved_enc_bits : decode ⟨0, 0b001000000001#12⟩ = .error .reservedRequest := by decide
theorem test_decode_reserved_rst_bits : decode ⟨0, 0b100000000001#12⟩ = .error .reservedRequest := by decide
theorem test_encode_words : (encode (.enc 1 0xFF#8)).word = 0b000011111111#12
    ∧ (encode (.dec 0x3FF#10)).word = 0b011111111111#12 ∧ (encode (.rst 1)).word = 0b100000000000#12 := by decide
theorem test_table_words : decodeTableWord 12 0x0FF = some (.enc 0 0xFF#8) ∧ decodeTableWord 12 0x100 = none
    ∧ decodeTableWord 16 0x1000 = none := by decide

/-! ## The operations -/

/-- W1: the source's worked example, ENC 0x00 at bias 0. -/
theorem test_enc_worked_example_one : nextOf (exec (.enc 0 0x00#8) (mach none [chan 0] []))
    = some (mach none [{ chan (-8) with out := [0x100#10] }] []) := by decide +kernel

/-- W2: ENC 0xFF at bias -2, the opposite-sign branch. -/
theorem test_enc_worked_example_two : nextOf (exec (.enc 0 0xFF#8) (mach none [chan (-2)] []))
    = some (mach none [{ chan (-4) with out := [0x254#10] }] []) := by decide +kernel

/-- R82's corner cases: the selector bit alone changes the word. -/
theorem test_dec_corner_cases : nextOf (exec (.dec 0x000#10) (mach none [] [])) = some { mach none [] [] with dout := [0x02#8] }
    ∧ nextOf (exec (.dec 0x254#10) (mach none [] [])) = some { mach none [] [] with dout := [0xFF#8] } := by decide +kernel

/-- R79's example, on the second of two instances. -/
theorem test_rst_example : nextOf (exec (.rst 1) (mach none [chan 4, chan (-24)] []))
    = some (mach none [chan 4, chan 0] []) := by decide +kernel

/-- T10: RST does not clear a fault mark. -/
theorem test_rst_leaves_fault_mark :
    nextOf (exec (.rst 0) (mach (some 5) [{ chan (-16) with fault := some overflowMark }] []))
      = some (mach (some 5) [{ chan (-16) with fault := some overflowMark }] []) := by decide +kernel

/-- The first step after reset runs the request that withFetchWord places. -/
theorem test_first_step_from_reset : nextOf (step (State.reset.withFetchWord 12 0x000))
    = some (State.reset.setChannel 0 { chan (-8) with out := [0x100#10] }) := by decide +kernel

/-- P5: after a refusal the run goes on. -/
theorem test_run_goes_on_after_refusal :
    nextOf (runSteps 2 (mach none [chan 0] [.issue ⟨0, 0xC00#12⟩, .issue ⟨0, 0x000#12⟩]))
      = some { mach none [{ chan (-8) with out := [0x100#10] }] [] with refusalMark := some .reservedRequest } := by
  decide +kernel

/-! ## Witnesses: the hypotheses of the statements can be met together -/

/-- The bits 1 to 7 of R53, R54, R55 and R82, at both ends. -/
theorem test_witness_bit_index : (1 ≤ 1 ∧ 1 ≤ 7 ∧ (xorChain 0x01#8).getLsbD 1 = true)
    ∧ (1 ≤ 7 ∧ 7 ≤ 7 ∧ (xnorCandidate 0x01#8).getLsbD 7 = false) := by decide

/-- SelectorIsOneBelowFourTailOnes, at the threshold. -/
theorem test_witness_selector : 4 ≤ tailOnes 0x1E#8 ∧ tailOnes 0x0E#8 < 4 := by decide

/-- DirectRuleComparesTransitionCounts: 7 transitions against 6, and 0 against 1. -/
theorem test_witness_direct_rule : countTransitions (xnorCandidate 0xFE#8) < countTransitions (xorChain 0xFE#8)
    ∧ countTransitions (xorChain 0x00#8) ≤ countTransitions (xnorCandidate 0x00#8) := by decide

/-- ChosenCandidateFollowsTheSelector, TransitionsOfTheChosenCandidate: both verdicts, and the words of most transitions. -/
theorem test_witness_chosen_candidate : selectShortcut 0x0E#8 = true ∧ selectShortcut 0xFC#8 = false
    ∧ countTransitions (chooseCandidate 0xFC#8).1 = 7 := by decide

/-- InvertFlagFollowsTheTieAndSignBranches, BiasChangeInEachBranch: a bias of 0, a candidate of bias 0, one sign, two signs. -/
theorem test_witness_balance_branches : ((0 : Int) = 0 ∨ bitBias 0x00#8 = 0)
    ∧ ((5 : Int) ≠ 0 ∧ bitBias 0xF0#8 = 0)
    ∧ ((-1 : Int) ≠ 0 ∧ bitBias 0x00#8 ≠ 0 ∧ (-1 : Int) < 0 ∧ bitBias 0x00#8 < 0)
    ∧ ((1 : Int) ≠ 0 ∧ bitBias 0x00#8 ≠ 0 ∧ (0 : Int) < 1 ∧ bitBias 0x00#8 < 0) := by decide

/-- BiasNeverReturnsTowardZero, BiasChangesAreEvenAndBounded: biases next to 0, with the change each makes. -/
theorem test_witness_bias_signs : ((0 : Int) < 1 ∧ (encodeStep 0x00#8 1).2 = 11)
    ∧ ((-1 : Int) < 0 ∧ (encodeStep 0x00#8 (-1)).2 = -9) := by decide +kernel

/-- TiePairIsAFunctionOfTheWord: a tie by the bias, and one by the candidate alone. -/
theorem test_witness_tie : ((0 : Int) = 0 ∨ bitBias (chooseCandidate 0x00#8).1 = 0)
    ∧ ((7 : Int) ≠ 0 ∧ bitBias (chooseCandidate 0x10#8).1 = 0) := by decide +kernel

/-- EncWritesTheBiasAndEmitsTheSymbol, EncFaultsExactlyOutsideTheRegisterRange, DecodingUndoesEncodingAtEveryBias: a 5-bit
register at both ends of its range, one bias that fits and the next that does not (R76; log 21 on T10's fifth row). -/
theorem test_witness_register_range :
    let s := mach (some 5) [chan 5, chan 6, chan (-8), chan (-9)] []
    s.biasWidth = some 5 ∧ 1 ≤ 5
      ∧ (s.channel? 0 = some (chan 5) ∧ (chan 5).fault = none ∧ (chan 5).slot = none
          ∧ (encodeStep 0x00#8 5).2 = 15 ∧ biasFits s.biasWidth 15 = true)
      ∧ (s.channel? 1 = some (chan 6) ∧ (chan 6).fault = none ∧ (chan 6).slot = none
          ∧ (encodeStep 0x00#8 6).2 = 16 ∧ biasFits s.biasWidth 16 = false)
      ∧ (s.channel? 2 = some (chan (-8)) ∧ (encodeStep 0x00#8 (-8)).2 = -16 ∧ biasFits s.biasWidth (-16) = true)
      ∧ (s.channel? 3 = some (chan (-9)) ∧ (encodeStep 0x00#8 (-9)).2 = -17 ∧ biasFits s.biasWidth (-17) = false) := by
  decide +kernel

/-- The same with the unbounded register, and a word whose candidate has bias 0 (R75's corner cases). -/
theorem test_witness_unbounded : (mach none [chan 0] []).channel? 0 = some (chan 0) ∧ (chan 0).fault = none
    ∧ (chan 0).slot = none ∧ (mach none [chan 0] []).biasWidth = none ∧ bitBias (chooseCandidate 0x10#8).1 = 0
    ∧ tailOnes 0x1E#8 = 4 ∧ tailOnes 0x0E#8 = 3 := by decide +kernel

/-- RstWritesZeroToTheBias, CreationAndRstLeaveTheTablesState: a bias away from 0, a bias of 0, and a faulted instance. -/
theorem test_witness_rst :
    let faulted := { chan 2 with fault := some overflowMark }
    let s := mach none [chan (-24), chan 0, faulted] []
    (s.channel? 0 = some (chan (-24)) ∧ (chan (-24)).fault = none ∧ (chan (-24)).slot = none)
      ∧ (s.channel? 1 = some (chan 0) ∧ (chan 0).rb = 0 ∧ s.biasWidth = none)
      ∧ (s.channel? 2 = some faulted ∧ faulted.fault = some overflowMark) := by decide

/-- RstForgetsTheHistory: two machines that differ in bias, trace and stream. -/
theorem test_witness_rst_forgets :
    let ops := [SlotRequest.enc 0x00#8, SlotRequest.rst]
    let s₁ := mach (some 5) [chan 4] (issueAll 0 (.rst :: ops))
    let s₂ := mach (some 5) [{ chan (-6) with out := [0x100#10] }] (issueAll 0 (.rst :: ops) ++ [.serve 0])
    s₁.biasWidth = s₂.biasWidth ∧ s₁.channel? 0 = some (chan 4) ∧ s₂.channel? 0 = some { chan (-6) with out := [0x100#10] }
      ∧ (chan 4).fault = none ∧ (chan 4).slot = none
      ∧ s₁.turns = issueAll 0 (.rst :: ops) ++ [] ∧ s₂.turns = issueAll 0 (.rst :: ops) ++ [.serve 0] := by decide

/-- EmittedSymbolsAreAmongTheAssembledOnes: a word of each kind (T5's rows for 0x00 and 0x10). -/
theorem test_witness_assembled : bitBias (chooseCandidate 0x00#8).1 ≠ 0 ∧ bitBias (chooseCandidate 0x10#8).1 = 0
    ∧ (encodeStep 0x00#8 (-1)).1 = 0x100#10 ∧ (encodeStep 0x00#8 1).1 = 0x3FF#10 ∧ (encodeStep 0x10#8 1).1 = 0x1F0#10 := by
  decide +kernel

/-- FourSymbolsDecodeToEachWord. -/
theorem test_witness_four_symbols : decodeSymbol (makeSymbol true false 0x01#8) = 0x00#8 ∧ decodeSymbol 0x0FE#10 = 0x00#8 := by
  decide

/-- DecCommutesWithEveryOperation, DifferentInstancesCommute: ENC on one instance, RST on another. -/
theorem test_witness_commute :
    let s := mach none [chan 0, chan 4] []
    (∀ x, Instr.enc 0 0x00#8 ≠ .dec x) ∧ (∀ x, Instr.rst 1 ≠ .dec x) ∧ (Instr.enc 0 0x00#8).channel ≠ (Instr.rst 1).channel
      ∧ exec (.enc 0 0x00#8) s = .next (mach none [{ chan (-8) with out := [0x100#10] }, chan 4] [])
      ∧ (Instr.rst 1).channel < s.channels.length :=
  ⟨fun _ => by simp, fun _ => by simp, by decide, of_nextOf (by decide +kernel), by decide⟩

/-- FrameOfEncRstAndDec: ENC completed, ENC faulted, RST, DEC. -/
theorem test_witness_frame :
    let s := mach (some 5) [chan 0, chan (-16)] []
    exec (.enc 0 0x00#8) s = .next (mach (some 5) [{ chan (-8) with out := [0x100#10] }, chan (-16)] [])
      ∧ exec (.enc 1 0x00#8) s
          = .next (mach (some 5) [chan 0, { chan (-16) with fault := some (.biasOverflow 0x000#12 1 (-16) (-24)) }] [])
      ∧ exec (.rst 1) s = .next (mach (some 5) [chan 0, chan 0] [])
      ∧ exec (.dec 0x100#10) s = .next { s with dout := [0x00#8] }
      ∧ s.channel? 0 = some (chan 0) :=
  ⟨of_nextOf (by decide +kernel), of_nextOf (by decide +kernel), of_nextOf (by decide +kernel), of_nextOf (by decide +kernel),
    by decide⟩

/-- BiasChangesOnlyByEncAndRst, OnlyRstBringsTheBiasBack, TracesOnlyGrowByOneValue, ParametersNeverChange: an issued ENC at a
positive bias. -/
theorem test_witness_issued_enc :
    let s := mach none [chan 2] [.issue ⟨0, 0x000#12⟩]
    let d := { chan 12 with out := [0x3FF#10] }
    step s = .next (mach none [d] []) ∧ s.channel? 0 = some (chan 2) ∧ (mach none [d] []).channel? 0 = some d
      ∧ d.rb ≠ (chan 2).rb ∧ 0 < (chan 2).rb ∧ (chan 2).slot ≠ some .rst
      ∧ (∀ q rest, s.turns = .issue q :: rest → decode q ≠ .ok (.rst 0)) :=
  ⟨of_nextOf (by decide +kernel), by decide, by decide, by decide, by decide, by decide,
    fun q rest h => by cases h; decide⟩

/-- The same, and the clauses of CreationAndRstLeaveTheTablesState and OccupiedSlotRaisesConcurrentAccess on a served RST: an
RST served from a slot at a negative bias. -/
theorem test_witness_served_rst :
    let c := { chan (-8) with slot := some .rst }
    let s := mach none [c] [.serve 0]
    step s = .next (mach none [chan 0] []) ∧ c.fault = none ∧ s.channel? 0 = some c ∧ (mach none [chan 0] []).channel? 0 = some (chan 0)
      ∧ (chan 0).rb ≠ c.rb ∧ c.rb < 0 :=
  ⟨of_nextOf (by decide +kernel), by decide, by decide, by decide, by decide, by decide⟩

/-- OccupiedSlotRaisesConcurrentAccess (T10): the slot occupied by ENC 0x00, and an empty slot. -/
theorem test_witness_occupied :
    let c := { chan (-8) with slot := some (.enc 0x00#8) }
    let s := mach none [c, chan 0] []
    (s.channel? 0 = some c ∧ c.fault = none ∧ c.slot = some (.enc 0x00#8))
      ∧ (s.channel? 1 = some (chan 0) ∧ (chan 0).fault = none ∧ (chan 0).slot = none) := by decide

/-- OccupiedSlotRaisesConcurrentAccess, a new mark: an RST issued to a slot that holds an ENC; and a placed DEC. -/
theorem test_witness_new_mark :
    let c := { chan 0 with slot := some (.enc 0x00#8) }
    let d := { c with fault := some (.concurrentAccess 0x000#12 0x800#12 0) }
    step (mach none [c] [.issue ⟨0, 0x800#12⟩]) = .next (mach none [d] [])
      ∧ (mach none [c] [.issue ⟨0, 0x800#12⟩]).channel? 0 = some c ∧ (mach none [d] []).channel? 0 = some d ∧ c.fault = none
      ∧ decode ⟨9, 0x500#12⟩ = .ok (.dec 0x100#10) :=
  ⟨of_nextOf (by decide +kernel), by decide, by decide, by decide, by decide⟩

/-- OccupiedSlotRaisesConcurrentAccess, its last clause: an ENC that overflows, and one to an instance that holds an old mark of two hosts. -/
theorem test_witness_one_host :
    let old := { chan 0 with fault := some (.concurrentAccess 0x000#12 0x800#12 1) }
    let s := mach (some 5) [chan (-16), old] [.issue ⟨0, 0x000#12⟩]
    let t := mach (some 5) [{ chan (-16) with fault := some overflowMark }, old] []
    (∀ c ∈ s.channels, c.slot = none) ∧ (∀ x ∈ s.turns, ∃ q, x = .issue q) ∧ step s = .next t
      ∧ s.channel? 1 = some old ∧ t.channel? 1 = some old ∧ old.fault = some (.concurrentAccess 0x000#12 0x800#12 1) :=
  ⟨by decide, fun x h => by simp [mach] at h; exact ⟨_, h⟩, of_nextOf (by decide +kernel), by decide, by decide, by decide⟩

/-- FaultsArePreciseAndNeverCleared, StepKeepsBiasesLegal, StepKeepsBiasesEven: a step that faults one instance beside a
faulted one. -/
theorem test_witness_faulting_step :
    let old := { chan 4 with fault := some (.concurrentAccess 0x000#12 0x800#12 1) }
    let new := { chan (-16) with fault := some overflowMark }
    let s := mach (some 5) [chan (-16), old] [.issue ⟨0, 0x000#12⟩]
    let t := mach (some 5) [new, old] []
    step s = .next t ∧ s.channel? 0 = some (chan (-16)) ∧ (chan (-16)).fault = none ∧ t.channel? 0 = some new
      ∧ new.fault = some overflowMark ∧ s.channel? 1 = some old ∧ s.legal = true ∧ s.evenBiases = true :=
  ⟨of_nextOf (by decide +kernel), by decide, by decide, by decide, by decide, by decide, by decide, by decide⟩

/-- StepKeepsFaultMarksTrue: a mark that is true of its instance, and a step. -/
theorem test_witness_true_marks :
    let c := { chan (-16) with fault := some overflowMark }
    let s := mach (some 5) [c] [.issue ⟨0, 0x800#12⟩]
    s.marksTrue ∧ step s = .next (mach (some 5) [c] []) := by
  refine ⟨fun ch c h => ?_, of_nextOf (by decide +kernel)⟩
  rcases ch with _ | ch
  · cases h
    exact ⟨rfl, rfl, by decide, 0x00#8, by decide, by decide +kernel⟩
  · simp [State.channel?, mach] at h

/-- ReservedRequestSetsTheRefusalMark: issued and placed, the mark clear before, and kept by the next step. -/
theorem test_witness_reserved :
    let s := mach none [chan 0] [.issue ⟨0, 0x100#12⟩, .place ⟨0, 0xC00#12⟩]
    let t := { mach none [chan 0] [.place ⟨0, 0xC00#12⟩] with refusalMark := some .reservedRequest }
    let u := { mach none [chan 0] [] with refusalMark := some .reservedRequest }
    isReserved 0x100#12 = true ∧ isReserved 0xC00#12 = true ∧ step s = .next t ∧ s.refusalMark = none ∧ t.refusalMark ≠ none
      ∧ step t = .next u ∧ t.refusalMark = some .reservedRequest :=
  ⟨by decide, by decide, of_nextOf (by decide +kernel), by decide, by decide, of_nextOf (by decide +kernel), by decide⟩

/-- ChecksComeInTheRulesOrder: each of the six clauses, the first on an occupied slot (T10's last row). -/
theorem test_witness_checks :
    let held := { chan 0 with slot := some (.enc 0x00#8) }
    let s := mach (some 5) [held, chan 6, chan 5] [.issue ⟨0, 0xC00#12⟩]
    (s.channel? 0 = some held ∧ held.fault = none ∧ isReserved 0xC00#12 = true ∧ held.slot = some (.enc 0x00#8))
      ∧ decode ⟨0, 0x0FF#12⟩ = .ok (.enc 0 0xFF#8) ∧ decode ⟨0, 0x800#12⟩ = .ok (.rst 0)
      ∧ (s.channel? 1 = some (chan 6) ∧ (chan 6).slot = none ∧ decode ⟨1, 0x000#12⟩ = .ok (.enc 1 0x00#8)
          ∧ biasFits s.biasWidth (encodeStep 0x00#8 (chan 6).rb).2 = false)
      ∧ (s.channel? 2 = some (chan 5) ∧ (chan 5).slot = none ∧ decode ⟨2, 0x000#12⟩ = .ok (.enc 2 0x00#8)
          ∧ biasFits s.biasWidth (encodeStep 0x00#8 (chan 5).rb).2 = true)
      ∧ decode ⟨2, 0x800#12⟩ = .ok (.rst 2) := by decide +kernel

/-- CreationMeetsTheInvariants, CreationAndRstLeaveTheTablesState: the smallest parameters R9 admits. -/
theorem test_witness_creation : (Config.mk (some 1) 1).wf = true
    ∧ (State.create (Config.mk (some 1) 1)).channel? 0 = some Channel.created
    ∧ State.reset.channel? 2 = some Channel.created ∧ State.reset.channel? 3 = none := by decide

/-- StepRunsTheDecodedRequest, and OccupiedSlotRaisesConcurrentAccess on a served ENC: an issued request, a served slot, and a served slot whose operation faults. -/
theorem test_witness_step :
    let ok := { chan 0 with slot := some (.enc 0x00#8) }
    let bad := { chan (-16) with slot := some (.enc 0x00#8) }
    decode ⟨0, 0x000#12⟩ = .ok (.enc 0 0x00#8)
      ∧ ((mach (some 5) [ok] [.serve 0]).channel? 0 = some ok ∧ ok.fault = none ∧ ok.slot = some (.enc 0x00#8))
      ∧ step (mach (some 5) [ok] [.serve 0]) = .next (mach (some 5) [{ chan (-8) with out := [0x100#10] }] [])
      ∧ step (mach (some 5) [bad] [.serve 0]) = .next (mach (some 5) [{ bad with fault := some overflowMark }] []) :=
  ⟨by decide, by decide, of_nextOf (by decide +kernel), of_nextOf (by decide +kernel)⟩

/-- PlaceThenServeIsIssue: an unfaulted instance with an empty slot, and what placing does to it. -/
theorem test_witness_place : (mach none [chan 0] []).channel? 0 = some (chan 0) ∧ (chan 0).fault = none ∧ (chan 0).slot = none
    ∧ nextOf (step (mach none [chan 0] [.place ⟨0, 0x0FF#12⟩])) = some (mach none [{ chan 0 with slot := some (.enc 0xFF#8) }] []) := by
  decide +kernel

/-- IdleMachineHoldsItsState: no move left; serving an empty slot; serving a faulted instance. -/
theorem test_witness_idle :
    let faulted := { chan 0 with fault := some overflowMark, slot := some .rst }
    (mach none [chan 0] []).turns = []
      ∧ ((mach none [chan 0] [.serve 0]).channel? 0 = some (chan 0) ∧ (chan 0).slot = none)
      ∧ ((mach none [faulted] [.serve 0]).channel? 0 = some faulted ∧ faulted.fault ≠ none) := by decide

/-- EveryStepCompletes: the three moves, each naming the last instance there is, and a refused step. -/
theorem test_witness_moves : (Turn.issue ⟨2, 0x000#12⟩).wf 3 = true ∧ (Turn.place ⟨2, 0x800#12⟩).wf 3 = true
    ∧ (Turn.serve 2).wf 3 = true ∧ (Turn.issue ⟨9, 0x400#12⟩).wf 3 = true ∧ (Turn.serve 3).wf 3 = false
    ∧ step (mach none [chan 0] [.serve 1]) = .refused (.noSuchChannel 1) :=
  ⟨by decide, by decide, by decide, by decide, by decide, rfl⟩

/-- MissingInstanceIsRefused: the first number no instance has. -/
theorem test_witness_missing_instance : (mach none [chan 0] [.serve 1]).channels.length ≤ 1
    ∧ (mach none [chan 0] [.serve 1]).turns = .serve 1 :: [] := by decide

/-- OutFollowsTheIssueOrder and ShortStreamsNeverOverflow (the bound met with n = 1 at W = 5: 10 ≤ 15). -/
theorem test_witness_streams :
    let s := mach none [chan 0] (issueAll 0 ([0x00#8, 0xFF#8].map SlotRequest.enc) ++ [.serve 0])
    let t := mach (some 5) [chan 14] (issueAll 0 (.rst :: [0x00#8].map SlotRequest.enc))
    (s.biasWidth = none ∧ s.channel? 0 = some (chan 0) ∧ (chan 0).fault = none ∧ (chan 0).slot = none)
      ∧ (t.biasWidth = some 5 ∧ (10 * (([0x00#8].length : Nat) : Int)) ≤ 2 ^ (5 - 1) - 1 ∧ t.channel? 0 = some (chan 14)
          ∧ (chan 14).fault = none ∧ (chan 14).slot = none) := by decide

/-- FinalRunsWereAlwaysClean: a run of two steps that ends final. -/
theorem test_witness_final_run :
    let s := mach none [chan 0] [.issue ⟨0, 0x000#12⟩, .issue ⟨0, 0x800#12⟩]
    let t := mach none [{ chan 0 with out := [0x100#10] }] []
    runSteps 2 s = .next t ∧ t.clean = true ∧ t.final = true :=
  ⟨of_nextOf (by decide +kernel), by decide, by decide⟩

/-- DecoderFollowsTheThreeRows, DecodingUndoesRequestEncoding: a word of each row, at the end of its range. -/
theorem test_witness_rows : 0x0FF#12 &&& 0xF00#12 = 0x000#12 ∧ 0x7FF#12 &&& 0xC00#12 = 0x400#12
    ∧ 0x800#12 &&& 0xFFF#12 = 0x800#12 ∧ decode ⟨0, 0x0FF#12⟩ = .ok (.enc 0 0xFF#8)
    ∧ decode ⟨0, 0x7FF#12⟩ = .ok (.dec 0x3FF#10) := by decide

/-- AssemblerChecksTheOperandRange: the last operand in range and the first out of it, for ENC and for DEC. -/
theorem test_witness_operands : readOperand ['0', 'x', 'F', 'F'] = some 0xFF ∧ readOperand ['0', 'x', '1', '0', '0'] = some 0x100
    ∧ readOperand ['0', 'x', '3', 'F', 'F'] = some 0x3FF ∧ readOperand ['0', 'x', '4', '0', '0'] = some 0x400 := by decide

end Sys2Proof.Tests
end

section
/-! Proofs of the family 10_state.md: what a newly created channel holds, and which operations write its bias. -/

namespace Sys2Proof.Machine

open Sys2Proof

section Creation

variable {p : Config} {ch : Nat} {c : Channel}

@[simp] theorem create_length : (State.create p).channels.length = p.numChannels := List.length_replicate

/-- Every channel of a newly created machine is newly created (R97). -/
theorem eq_created_of_create_channel? (h : (State.create p).channel? ch = some c) : c = Channel.created :=
  List.eq_of_mem_replicate (List.mem_of_getElem? h)

/-- What R19 and R99's table give a newly created machine's channel. -/
theorem create_channel?_fields (h : (State.create p).channel? ch = some c) :
    c.rb = 0 ∧ c.fault = none ∧ c.out = [] ∧ c.slot = none := by
  obtain rfl := eq_created_of_create_channel? h
  exact ⟨rfl, rfl, rfl, rfl⟩

end Creation

section Operations

variable {s t : State} {ch k : Nat} {c d e e' : Channel} {op : SlotRequest}

/-- A channel that differs after a replacement is the replaced one. -/
theorem setChannel_changed (he : s.channel? k = some e) (hc : s.channel? ch = some c)
    (hd : (s.setChannel k e').channel? ch = some d) (hne : d ≠ c) : k = ch ∧ e = c ∧ e' = d := by
  by_cases hk : ch = k
  · subst hk
    rw [setChannel_channel?_self s ch e e' he] at hd
    exact ⟨rfl, Option.some.inj (he.symm.trans hc), Option.some.inj hd⟩
  · rw [setChannel_channel?_other s k ch e' hk] at hd
    exact absurd (Option.some.inj (hd.symm.trans hc)) hne

/-- An unfaulted channel with an empty slot performs the operation it is addressed (R94). -/
theorem exec_free (hc : s.channel? ch = some c) (hf : c.fault = none) (hs : c.slot = none) :
    exec (op.instr ch) s = .next (s.setChannel ch (slotEffect s.biasWidth ch op c)) := by
  rw [exec_slotRequest, onChannel_free hc hf hs]

/-- A faulted channel passes an operation over (R92). -/
theorem exec_faulted {f : Fault} (hc : s.channel? ch = some c) (hf : c.fault = some f) :
    exec (op.instr ch) s = .next s := by
  rw [exec_slotRequest, onChannel_faulted hc hf]

/-- An unfaulted channel takes the request in its slot (R91). -/
theorem serveSlot_taken (hc : s.channel? ch = some c) (hf : c.fault = none) (hs : c.slot = some op) :
    serveSlot ch s
      = .next (keepIfFaulted ch op (s.setChannel ch (slotEffect s.biasWidth ch op (c.fillSlot none)))) := by
  simp [serveSlot, hc, hf, hs, exec_taken op hc hf]

/-- A request taken by a step that did not fault is out of the slot (R91). -/
theorem keepIfFaulted_unfaulted (hc : s.channel? ch = some c) (hf : c.fault = none) : keepIfFaulted ch op s = s := by
  simp [keepIfFaulted, hc, hf]

/-- An RST taken from the slot empties it and writes 0 (R79, R91). -/
theorem serveSlot_rst (hc : s.channel? ch = some c) (hf : c.fault = none) (hs : c.slot = some .rst) :
    serveSlot ch s = .next (s.setChannel ch ((c.fillSlot none).writeBias biasReset)) := by
  rw [serveSlot_taken hc hf hs,
    keepIfFaulted_unfaulted (setChannel_channel?_self s ch c _ hc) (by simpa [slotEffect] using hf)]
  rfl

end Operations

/-- R20's two ways to change a bias: an ENC adds the bias of the symbol it emits, and an RST writes 0. -/
def SlotRequest.WritesBias (op : SlotRequest) (c d : Channel) : Prop :=
  (∃ w, op = .enc w ∧ d.rb = c.rb + bitBias (encodeStep w c.rb).1 ∧ d.out = c.out ++ [(encodeStep w c.rb).1])
    ∨ (op = .rst ∧ d.rb = 0)

section BiasChanges

variable {s t : State} {ch k : Nat} {c d : Channel}

/-- The new bias is the old one and the bias of the symbol (R67). -/
theorem encodeStep_bias (w : Word) (b : Int) : (encodeStep w b).2 = b + bitBias (encodeStep w b).1 := rfl

/-- An ENC or an RST that is performed keeps the bias or writes it in its own way; an ENC keeps it where it overflows (R76). -/
theorem slotEffect_rb (width : Option Nat) (op : SlotRequest) :
    (slotEffect width ch op c).rb = c.rb ∨ op.WritesBias c (slotEffect width ch op c) := by
  cases op with
  | rst => exact .inr (.inr ⟨rfl, rfl⟩)
  | enc w =>
    cases hb : biasFits width (encodeStep w c.rb).2 with
    | true => exact .inr (.inl ⟨w, rfl, by simp [slotEffect, encodeNext_fits hb, encodeStep_bias]⟩)
    | false => exact .inl (by simp [slotEffect, encodeNext_overflows hb])

variable (hc : s.channel? ch = some c) (hd : t.channel? ch = some d) (hrb : d.rb ≠ c.rb)
include hc hd hrb

/-- Only a change of the channels changes a bias. -/
theorem channels_ne_of_bias_changed : t.channels ≠ s.channels := by
  intro h
  have hcd : some d = some c := by rw [← hd, ← hc, State.channel?, h, State.channel?]
  exact hrb (by rw [Option.some.inj hcd])

/-- A channel whose bias differs after a replacement is the replaced one. -/
theorem replaced_of_bias_changed {e e' : Channel} (he : s.channel? k = some e) (ht : t = s.setChannel k e') :
    k = ch ∧ e = c ∧ e' = d :=
  setChannel_changed he hc (ht ▸ hd) fun h => hrb (h ▸ rfl)

/-- A request that reaches a channel changes no bias but by being performed on that channel. -/
theorem onChannel_changes_bias {r : RequestWord} {p : Channel → Channel} (h : onChannel s k r p = .next t) :
    k = ch ∧ d = p c := by
  obtain ⟨e, he, ⟨-, ht⟩ | ⟨-, held, -, ht⟩ | ⟨-, -, ht⟩⟩ := onChannel_next h
  · exact absurd (congrArg State.channels ht) (channels_ne_of_bias_changed hc hd hrb)
  · obtain ⟨-, rfl, rfl⟩ := replaced_of_bias_changed hc hd hrb he ht
    exact absurd rfl hrb
  · obtain ⟨hk, rfl, rfl⟩ := replaced_of_bias_changed hc hd hrb he ht
    exact ⟨hk, rfl⟩

/-- An operation that changes the bias of a channel is an ENC or an RST addressed to it. -/
theorem exec_changes_bias {i : Instr} (h : exec i s = .next t) :
    ∃ op : SlotRequest, i = op.instr ch ∧ op.WritesBias c d := by
  have addressed : ∀ (k : Nat) (op : SlotRequest), exec (op.instr k) s = .next t →
      ∃ op' : SlotRequest, op.instr k = op'.instr ch ∧ op'.WritesBias c d := by
    intro k op h
    rw [exec_slotRequest] at h
    obtain ⟨rfl, rfl⟩ := onChannel_changes_bias hc hd hrb h
    exact ⟨op, rfl, (slotEffect_rb _ op).resolve_left hrb⟩
  cases i with
  | enc k w => exact addressed k (.enc w) h
  | rst k => exact addressed k .rst h
  | dec x =>
    cases h
    exact absurd rfl (channels_ne_of_bias_changed hc hd hrb)

/-- An issued request that changes a bias is an ENC or an RST to that channel. -/
theorem issueRequest_changes_bias {q : Request} (h : issueRequest q s = .next t) :
    ∃ op : SlotRequest, decode q = .ok (op.instr ch) ∧ op.WritesBias c d := by
  obtain ⟨i, hq, h⟩ | ⟨r, -, rfl⟩ := issueRequest_cases h
  · obtain ⟨op, rfl, hw⟩ := exec_changes_bias hc hd hrb h
    exact ⟨op, hq, hw⟩
  · exact absurd rfl (channels_ne_of_bias_changed hc hd hrb)

omit hrb in
/-- Placing a request changes no bias. -/
theorem placeRequest_keeps_bias {q : Request} (h : placeRequest q s = .next t) : d.rb = c.rb := by
  by_contra hrb
  obtain ⟨k, op, -, h⟩ | ⟨x, -, rfl⟩ | ⟨r, -, rfl⟩ := placeRequest_cases h
  · obtain ⟨-, rfl⟩ := onChannel_changes_bias hc hd hrb h
    exact hrb rfl
  · exact channels_ne_of_bias_changed hc hd hrb rfl
  · exact channels_ne_of_bias_changed hc hd hrb rfl

/-- Serving a channel changes no bias but its own, by the operation in its slot. -/
theorem serveSlot_changes_bias (h : serveSlot k s = .next t) :
    k = ch ∧ ∃ op, c.slot = some op ∧ op.WritesBias c d := by
  obtain ⟨e, he, ⟨-, ht⟩ | ⟨-, w, hs, ⟨-, ht⟩ | ⟨-, ht⟩⟩ | ⟨-, hs, ht⟩⟩ := serveSlot_cases h
  · exact absurd (congrArg State.channels ht) (channels_ne_of_bias_changed hc hd hrb)
  · obtain ⟨hk, rfl, rfl⟩ := replaced_of_bias_changed hc hd hrb he ht
    exact ⟨hk, .enc w, hs, .inl ⟨w, rfl, encodeStep_bias w e.rb, rfl⟩⟩
  · obtain ⟨-, rfl, rfl⟩ := replaced_of_bias_changed hc hd hrb he ht
    exact absurd rfl hrb
  · obtain ⟨hk, rfl, rfl⟩ := replaced_of_bias_changed hc hd hrb he ht
    exact ⟨hk, .rst, hs, .inr ⟨rfl, rfl⟩⟩

/-- A step that changes the bias of a channel performs an ENC or an RST issued to it or taken from its slot (R20). -/
theorem step_changes_bias (h : step s = .next t) :
    ∃ op : SlotRequest,
      ((∃ q rest, s.turns = .issue q :: rest ∧ decode q = .ok (op.instr ch))
          ∨ (c.slot = some op ∧ ∃ rest, s.turns = .serve ch :: rest))
        ∧ op.WritesBias c d := by
  obtain ⟨-, ht⟩ | ⟨x, rest, hs, h⟩ := step_cases h
  · exact absurd (congrArg State.channels ht) (channels_ne_of_bias_changed hc hd hrb)
  · have hc' : (s.withTurns rest).channel? ch = some c := hc
    cases x with
    | issue q =>
      obtain ⟨op, hq, hw⟩ := issueRequest_changes_bias hc' hd hrb h
      exact ⟨op, .inl ⟨q, rest, hs, hq⟩, hw⟩
    | place q => exact absurd (placeRequest_keeps_bias hc' hd h) hrb
    | serve k =>
      obtain ⟨rfl, op, hop, hw⟩ := serveSlot_changes_bias hc' hd hrb h
      exact ⟨op, .inr ⟨hop, rest, hs⟩, hw⟩

end BiasChanges

/-- Settles O35, by a case split along the moves a step can make. -/
theorem biasChangesOnlyByEncAndRst : Obligations.BiasChangesOnlyByEncAndRst := by
  refine ⟨?changes, fun _ => step_idle, ?dec⟩
  case changes =>
    intro s t ch c d h hc hd hrb
    exact step_changes_bias hc hd hrb h
  case dec =>
    intro s t symbol h
    cases h
    exact ⟨rfl, rfl⟩

/-- Settles O44: the created channel's fields, and RST performed when issued, when served, and passed over when faulted. -/
theorem creationAndRstLeaveTheTablesState : Obligations.CreationAndRstLeaveTheTablesState := by
  refine ⟨fun p => ⟨create_length, fun ch c => create_channel?_fields⟩, fun ch c => create_channel?_fields,
    ?issued, ?served, ?faulted⟩
  case issued =>
    intro s ch c hc hf hs
    exact ⟨_, _, exec_free (op := .rst) hc hf hs, setChannel_channel?_self s ch c _ hc, rfl, rfl, rfl, hs⟩
  case served =>
    intro s ch c rest ht hc hf hs
    have hserve := serveSlot_rst (s := s.withTurns rest) hc hf hs
    exact ⟨_, _, (step_turn ht).trans hserve, setChannel_channel?_self (s.withTurns rest) ch c _ hc, rfl, rfl, rfl, rfl⟩
  case faulted =>
    intro s ch c f hc hf
    exact exec_faulted (op := .rst) hc hf

end Sys2Proof.Machine
end

section
/-! Proofs of the family 20_memory.md: `DOUT` and the encoder instances are apart, so DEC commutes with every operation. -/

namespace Sys2Proof.Machine

open Sys2Proof

section DecoderTrace

variable {s t : State} {ch : Nat} {w : Word}

/-- DEC is emitting the decoded word, in every state (R82). -/
theorem exec_dec (x : Symbol) : exec (.dec x) s = .next (s.emitWord (decodeSymbol x)) := rfl

/-- The decoder's trace and the instances are apart: their updates commute. -/
theorem setChannel_emitWord (c : Channel) : (s.emitWord w).setChannel ch c = (s.setChannel ch c).emitWord w := rfl

/-- Two words emitted one after the other stand in that order. -/
theorem emitWord_emitWord (v : Word) : (s.emitWord v).emitWord w = { s with dout := s.dout ++ [v, w] } := by
  simp [State.emitWord]

/-- A request to an instance does the same with a further word in `DOUT`, and keeps that word. -/
theorem onChannel_emitWord {r : RequestWord} {p : Channel → Channel} (h : onChannel s ch r p = .next t) :
    onChannel (s.emitWord w) ch r p = .next (t.emitWord w) := by
  obtain ⟨c, hc, ⟨hf, rfl⟩ | ⟨hf, held, hs, rfl⟩ | ⟨hf, hs, rfl⟩⟩ := onChannel_next h
  · obtain ⟨f, hf⟩ := Option.ne_none_iff_exists'.mp hf
    exact onChannel_faulted hc hf
  · rw [onChannel_occupied (by simpa using hc) hf hs, setChannel_emitWord]
  · rw [onChannel_free (by simpa using hc) hf hs, setChannel_emitWord]

/-- Emitting a word to `DOUT` commutes with every completed ENC and RST (R35). -/
theorem exec_emitWord {i : Instr} (hi : ∀ x, i ≠ .dec x) (h : exec i s = .next t) :
    exec i (s.emitWord w) = .next (t.emitWord w) := by
  cases i with
  | enc ch v => exact onChannel_emitWord h
  | rst ch => exact onChannel_emitWord h
  | dec x => exact absurd rfl (hi x)

end DecoderTrace

/-- Settles O32: DEC only emits a word to `DOUT`, which ENC and RST neither read nor write, and a second DEC appends to. -/
theorem decCommutesWithEveryOperation : Obligations.DecCommutesWithEveryOperation := by
  refine ⟨?instances, ?decoder⟩
  case instances =>
    intro s t symbol i hi h
    exact ⟨_, _, exec_dec symbol, exec_emitWord hi h, exec_dec symbol⟩
  case decoder =>
    intro s x y
    refine ⟨_, _, exec_dec x, ?_, exec_dec y, ?_⟩
    · rw [exec_dec, emitWord_emitWord]
    · rw [exec_dec, emitWord_emitWord]

end Sys2Proof.Machine
end

section
/-! Proofs of the family 30_encoding.md: the rows of the request table by their fields, the words that no row matches, what
sets the refusal mark, and the symbol as its three fields. -/

namespace Sys2Proof

section RequestRows

/-- A masked comparison of a bit vector cut in two compares the halves apart. -/
theorem and_append_eq_append_iff {n m : Nat} (r : BitVec (n + m)) (maskHi patHi : BitVec n) (maskLo patLo : BitVec m) :
    r &&& (maskHi ++ maskLo) = patHi ++ patLo
      ↔ r.extractLsb' m n &&& maskHi = patHi ∧ r.extractLsb' 0 m &&& maskLo = patLo := by
  have append_inj : ∀ (a b : BitVec n) (c d : BitVec m), a ++ c = b ++ d ↔ a = b ∧ c = d := by
    intro a b c d
    refine ⟨fun h => ⟨?_, ?_⟩, fun ⟨hab, hcd⟩ => hab ▸ hcd ▸ rfl⟩
    · simpa only [BitVec.extractLsb'_append_eq_left] using congrArg (BitVec.extractLsb' m n) h
    · simpa only [BitVec.extractLsb'_append_eq_right] using congrArg (BitVec.extractLsb' 0 m) h
  rw [← append_inj, ← BitVec.and_append, BitVec.extractLsb'_append_extractLsb']

variable (r : RequestWord)

/-- R43's ENC row by its fields: its mask is OP, then the two bits that must be zero, then the free operand. -/
theorem encRow_selects_iff : encRow.selects r = true ↔ opField r = 0#2 ∧ r.extractLsb' 8 2 = 0#2 := by
  have payload := and_append_eq_append_iff (symbolField r) (BitVec.allOnes 2) 0#2 0#8 0#8
  rw [BitVec.and_allOnes, BitVec.and_zero, and_iff_left rfl] at payload
  have row := and_append_eq_append_iff r (BitVec.allOnes 2) 0#2 (BitVec.allOnes 2 ++ 0#8) (0#2 ++ 0#8)
  rw [BitVec.and_allOnes] at row
  have reserved : (symbolField r).extractLsb' 8 2 = r.extractLsb' 8 2 := by
    ext i hi
    simp [symbolField]
  rw [← reserved]
  exact beq_iff_eq.trans (row.trans (and_congr_right' payload))

/-- R43's DEC row by its fields: its mask is OP, then the free operand. -/
theorem decRow_selects_iff : decRow.selects r = true ↔ opField r = 1#2 := by
  have row := and_append_eq_append_iff r (BitVec.allOnes 2) 1#2 0#10 0#10
  rw [BitVec.and_allOnes, BitVec.and_zero, and_iff_left rfl] at row
  exact beq_iff_eq.trans row

/-- R43's RST row by its fields: its mask is the whole word. -/
theorem rstRow_selects_iff : rstRow.selects r = true ↔ opField r = 2#2 ∧ symbolField r = 0#10 := by
  have row := and_append_eq_append_iff r (BitVec.allOnes 2) 2#2 (BitVec.allOnes 10) 0#10
  rw [BitVec.and_allOnes, BitVec.and_allOnes] at row
  exact beq_iff_eq.trans row

variable {r}

/-- No two rows select one word, for their operation fields differ (R43). -/
theorem not_decRow_of_encRow (h : encRow.selects r = true) : decRow.selects r ≠ true := by
  obtain ⟨hop, -⟩ := (encRow_selects_iff r).mp h
  simp [decRow_selects_iff, hop]

theorem not_encRow_of_rstRow (h : rstRow.selects r = true) : encRow.selects r ≠ true := by
  obtain ⟨hop, -⟩ := (rstRow_selects_iff r).mp h
  simp [encRow_selects_iff, hop]

theorem not_decRow_of_rstRow (h : rstRow.selects r = true) : decRow.selects r ≠ true := by
  obtain ⟨hop, -⟩ := (rstRow_selects_iff r).mp h
  simp [decRow_selects_iff, hop]

/-- R45's three kinds of reserved words. -/
theorem isReserved_iff : isReserved r = true ↔ opField r = 3#2
    ∨ (opField r = 0#2 ∧ r.extractLsb' 8 2 ≠ 0#2) ∨ (opField r = 2#2 ∧ symbolField r ≠ 0#10) := by
  simp [isReserved, or_assoc]

/-- The reserved words are those that no row selects (R43, R45): at each OP but 11 a row is left, and it selects the words
whose bits that must be zero are. -/
theorem isReserved_iff_no_row : isReserved r = true
    ↔ encRow.selects r ≠ true ∧ decRow.selects r ≠ true ∧ rstRow.selects r ≠ true := by
  have ops : ∀ op : BitVec 2, op = 0#2 ∨ op = 1#2 ∨ op = 2#2 ∨ op = 3#2 := by decide
  simp only [ne_eq, isReserved_iff, encRow_selects_iff, decRow_selects_iff, rstRow_selects_iff]
  obtain h | h | h | h := ops (opField r) <;> simp [h]

end RequestRows

section Decoding

variable {q : Request}

theorem decode_of_encRow (h : encRow.selects q.word = true) : decode q = .ok (.enc q.ch (wordField q.word)) :=
  if_pos h

theorem decode_of_decRow (h : decRow.selects q.word = true) : decode q = .ok (.dec (symbolField q.word)) := by
  have henc : encRow.selects q.word ≠ true := fun he => not_decRow_of_encRow he h
  simp [decode, henc, h]

theorem decode_of_rstRow (h : rstRow.selects q.word = true) : decode q = .ok (.rst q.ch) := by
  simp [decode, not_encRow_of_rstRow h, not_decRow_of_rstRow h, h]

theorem decode_of_isReserved (h : isReserved q.word = true) : decode q = .error .reservedRequest := by
  obtain ⟨henc, hdec, hrst⟩ := isReserved_iff_no_row.mp h
  simp [decode, henc, hdec, hrst]

/-- Only a reserved request is refused: one that a row selects decodes to that row's operation. -/
theorem isReserved_of_decode_error {e : RefusalReason} (h : decode q = .error e) : isReserved q.word = true := by
  refine isReserved_iff_no_row.mpr ⟨fun henc => ?_, fun hdec => ?_, fun hrst => ?_⟩
  · simp [decode_of_encRow henc] at h
  · simp [decode_of_decRow hdec] at h
  · simp [decode_of_rstRow hrst] at h

end Decoding

/-- Settles O56: each row by its fields, and the reserved words as those that no row selects. -/
theorem decoderFollowsTheThreeRows : Obligations.DecoderFollowsTheThreeRows := by
  intro q
  refine ⟨fun ⟨henc, hdec⟩ => not_decRow_of_encRow henc hdec, fun ⟨henc, hrst⟩ => not_encRow_of_rstRow hrst henc,
    fun ⟨hdec, hrst⟩ => not_decRow_of_rstRow hrst hdec, ?enc, ?dec, ?rst,
    ⟨decode_of_isReserved, isReserved_of_decode_error⟩, isReserved_iff⟩
  case enc => exact fun h => decode_of_encRow (beq_iff_eq.mpr h)
  case dec => exact fun h => decode_of_decRow (beq_iff_eq.mpr h)
  case rst => exact fun h => decode_of_rstRow (beq_iff_eq.mpr h)

end Sys2Proof

namespace Sys2Proof.Machine

open Sys2Proof

section RefusalMark

variable {s t : State} {ch : Nat} {q : Request}

/-- A reserved request that is issued is refused (R90). -/
theorem issueRequest_reserved (h : isReserved q.word = true) : issueRequest q s = .next (s.refuse .reservedRequest) := by
  simp [issueRequest, decode_of_isReserved h]

/-- A reserved request that is placed is refused before it reaches a slot (R94). -/
theorem placeRequest_reserved (h : isReserved q.word = true) : placeRequest q s = .next (s.refuse .reservedRequest) := by
  simp [placeRequest, decode_of_isReserved h]

/-- A request to a channel leaves the refusal mark as it is. -/
theorem onChannel_refusalMark {r : RequestWord} {p : Channel → Channel} (h : onChannel s ch r p = .next t) :
    t.refusalMark = s.refusalMark := by
  obtain ⟨c, -, ⟨-, rfl⟩ | ⟨-, held, -, rfl⟩ | ⟨-, -, rfl⟩⟩ := onChannel_next h <;> rfl

/-- No operation sets the refusal mark. -/
theorem exec_refusalMark {i : Instr} (h : exec i s = .next t) : t.refusalMark = s.refusalMark := by
  cases i with
  | enc ch w => exact onChannel_refusalMark h
  | rst ch => exact onChannel_refusalMark h
  | dec x =>
    cases h
    rfl

/-- Serving a channel leaves the refusal mark as it is. -/
theorem serveSlot_refusalMark (h : serveSlot ch s = .next t) : t.refusalMark = s.refusalMark := by
  obtain ⟨c, -, ⟨-, rfl⟩ | ⟨-, w, -, ⟨-, rfl⟩ | ⟨-, rfl⟩⟩ | ⟨-, -, rfl⟩⟩ := serveSlot_cases h <;> rfl

/-- A move leaves the refusal mark as it is, or it is a reserved request, issued or placed. -/
theorem runTurn_refusalMark {x : Turn} (h : runTurn x s = .next t) :
    t.refusalMark = s.refusalMark ∨ ∃ q, isReserved q.word = true ∧ (x = .issue q ∨ x = .place q) := by
  cases x with
  | serve ch => exact .inl (serveSlot_refusalMark h)
  | issue q =>
    obtain ⟨i, -, h⟩ | ⟨e, he, -⟩ := issueRequest_cases h
    · exact .inl (exec_refusalMark h)
    · exact .inr ⟨q, isReserved_of_decode_error he, .inl rfl⟩
  | place q =>
    obtain ⟨ch, op, -, h⟩ | ⟨x, -, rfl⟩ | ⟨e, he, -⟩ := placeRequest_cases h
    · exact .inl (onChannel_refusalMark h)
    · exact .inl rfl
    · exact .inr ⟨q, isReserved_of_decode_error he, .inr rfl⟩

/-- A reserved request, issued or placed, sets the refusal mark and nothing else (R90). -/
theorem step_reserved {rest : List Turn} (hq : isReserved q.word = true)
    (hs : s.turns = .issue q :: rest ∨ s.turns = .place q :: rest) :
    step s = .next ((s.withTurns rest).refuse .reservedRequest) := by
  obtain hs | hs := hs
  · exact (step_turn hs).trans (issueRequest_reserved hq)
  · exact (step_turn hs).trans (placeRequest_reserved hq)

/-- A step leaves the refusal mark as it is, or its move is a reserved request, issued or placed. -/
theorem step_refusalMark (h : step s = .next t) :
    t.refusalMark = s.refusalMark
      ∨ ∃ q rest, isReserved q.word = true ∧ (s.turns = .issue q :: rest ∨ s.turns = .place q :: rest) := by
  obtain ⟨-, rfl⟩ | ⟨x, rest, hs, h⟩ := step_cases h
  · exact .inl rfl
  · obtain hm | ⟨q, hq, hx⟩ := runTurn_refusalMark h
    · exact .inl hm
    · exact .inr ⟨q, rest, hq, by simpa [hs] using hx⟩

end RefusalMark

/-- Settles O39: the mark is set by the refusal of a reserved request alone, and there is one reason to refuse. -/
theorem reservedRequestSetsTheRefusalMark : Obligations.ReservedRequestSetsTheRefusalMark := by
  refine ⟨fun s q rest hq hs => step_reserved hq hs, ?kept, ?only, fun r => isReserved_iff⟩
  case kept =>
    intro s t r h hr
    obtain hm | ⟨q, rest, hq, hs⟩ := step_refusalMark h
    · rw [hm, hr]
    · rw [step_reserved hq hs] at h
      cases h
      cases r
      rfl
  case only =>
    intro s t h hnone hset
    exact (step_refusalMark h).resolve_left fun hm => hset (hm.trans hnone)

section SymbolFields

/-- A bit is the field of width 1 at its place. -/
theorem ofBool_getLsbD {n : Nat} (v : BitVec n) (i : Nat) : BitVec.ofBool (v.getLsbD i) = v.extractLsb' i 1 := by
  ext k hk
  obtain rfl : k = 0 := by omega
  simp

/-- A symbol is its three fields put together (R40). -/
@[simp] theorem makeSymbol_fields (s : Symbol) : makeSymbol (symbolInvert s) (symbolSelector s) (symbolData s) = s := by
  simp only [makeSymbol, symbolInvert, symbolSelector, symbolData, ofBool_getLsbD]
  have control : s.extractLsb' 9 1 ++ s.extractLsb' 8 1 = s.extractLsb' 8 2 :=
    BitVec.extractLsb'_append_extractLsb'_eq_extractLsb' rfl
  rw [control]
  exact BitVec.extractLsb'_append_extractLsb'

/-- An assembled symbol as a number (R40). -/
theorem toNat_makeSymbol (inv sel : Bool) (d : BitVec 8) :
    (makeSymbol inv sel d).toNat = inv.toNat * 2 ^ 9 + sel.toNat * 2 ^ 8 + d.toNat := by
  have toNat_append : ∀ {n m : Nat} (a : BitVec n) (b : BitVec m), (a ++ b).toNat = a.toNat * 2 ^ m + b.toNat := by
    intro n m a b
    rw [BitVec.toNat_append, ← Nat.shiftLeft_add_eq_or_of_lt b.isLt, Nat.shiftLeft_eq]
  simp only [makeSymbol, toNat_append, BitVec.toNat_ofBool]
  omega

/-- The candidate that goes with a word's selector bit (R61). -/
theorem chooseCandidate_fst (w : Word) :
    (chooseCandidate w).1 = if (chooseCandidate w).2 then xorChain w else xnorCandidate w := by
  cases h : selectShortcut w <;> simp [chooseCandidate, h]

/-- The selector bit of an emitted symbol is the chosen candidate's (R61, R66). -/
@[simp] theorem symbolSelector_encodeStep (w : Word) (b : Int) :
    symbolSelector (encodeStep w b).1 = (chooseCandidate w).2 :=
  symbolSelector_makeSymbol _ _ _

/-- The data bits of an emitted symbol are the chosen candidate, inverted where the invert flag says so (R66). -/
theorem symbolData_encodeStep (w : Word) (b : Int) :
    symbolData (encodeStep w b).1 = invertIf (symbolInvert (encodeStep w b).1) (chooseCandidate w).1 := by
  simp [encodeStep, balance]

end SymbolFields

/-- Settles O15: the three fields make up the symbol, and an emitted symbol's fields are those it was assembled from. -/
theorem symbolIsItsThreeFields : Obligations.SymbolIsItsThreeFields := by
  refine ⟨makeSymbol_fields, ?number, ?fields, ?emitted⟩
  case number =>
    intro s
    rw [← toNat_makeSymbol, makeSymbol_fields]
  case fields =>
    intro inv sel d
    exact ⟨symbolInvert_makeSymbol inv sel d, symbolSelector_makeSymbol inv sel d, symbolData_makeSymbol inv sel d⟩
  case emitted =>
    intro w b
    simp only [symbolSelector_encodeStep, ← chooseCandidate_fst]
    exact symbolData_encodeStep w b

end Sys2Proof.Machine
end

section
/-! Proofs of the family 40_bitops_candidates.md: the counting loops as sums over the bits, the candidates bit by bit, and the
selector by the threshold of the tail's ones. -/

namespace Sys2Proof.Machine

open Sys2Proof

section BitCounts

variable {n : Nat} (v : BitVec n)

/-- Adding up truth values as numbers counts the true ones. -/
theorem sum_toNat_eq_card {k : Nat} (f : Fin k → Bool) :
    ∑ i, (f i).toNat = (Finset.univ.filter (fun i => f i = true)).card := by
  simp only [Finset.card_filter, Bool.toNat, Bool.cond_eq_ite]

/-- The loop of R49 adds up its bits. -/
theorem onesBelow_eq_sum (k : Nat) : onesBelow v k = ∑ i : Fin k, (v.getLsbD i).toNat := by
  induction k with
  | zero => rfl
  | succ k ih => simp [onesBelow, ih, Fin.sum_univ_castSucc]

/-- R49: the count of ones is the number of set bits. -/
theorem countOnes_eq_card : countOnes v = (Finset.univ.filter (fun i : Fin n => v.getLsbD i = true)).card :=
  (onesBelow_eq_sum v n).trans (sum_toNat_eq_card _)

theorem countOnes_le : countOnes v ≤ n := onesBelow_le v n

@[simp] theorem countOnes_zero : countOnes 0#n = 0 := by
  simp [countOnes_eq_card]

@[simp] theorem countOnes_allOnes : countOnes (BitVec.allOnes n) = n := by
  simp [countOnes_eq_card]

/-- The loop of R50 adds up the differences of neighbouring bits. -/
theorem transitionsBelow_eq_sum (k : Nat) :
    transitionsBelow v k = ∑ i : Fin k, (v.getLsbD i ^^ v.getLsbD (i + 1)).toNat := by
  induction k with
  | zero => rfl
  | succ k ih => simp [transitionsBelow, ih, Fin.sum_univ_castSucc]

/-- R50: the count of transitions is the number of neighbouring bits that differ. -/
theorem countTransitions_eq_card : countTransitions v
    = (Finset.univ.filter (fun i : Fin (n - 1) => v.getLsbD i ≠ v.getLsbD (i + 1))).card := by
  simp only [countTransitions, transitionsBelow_eq_sum, sum_toNat_eq_card, bne_iff_ne]

theorem countTransitions_le : countTransitions v ≤ n - 1 :=
  (countTransitions_eq_card v).trans_le (card_finset_fin_le _)

variable {v}

/-- A value whose bits are all equal has no transition (R50). -/
theorem countTransitions_eq_zero {b : Bool} (h : ∀ i < n, v.getLsbD i = b) : countTransitions v = 0 := by
  rw [countTransitions_eq_card, Finset.card_eq_zero, Finset.filter_eq_empty_iff]
  intro i _
  rw [h i (by omega), h (i + 1) (by omega), not_not]

variable (v)

/-- R51: the bias adds +1 for each set bit and -1 for each unset bit. -/
theorem bitBias_eq_sum : bitBias v = ∑ i : Fin n, if v.getLsbD i then (1 : Int) else -1 := by
  have sign : ∀ b : Bool, (if b then (1 : Int) else -1) = 2 * (b.toNat : Int) - 1 := by decide
  simp only [sign, Finset.sum_sub_distrib, ← Finset.mul_sum, ← Nat.cast_sum, ← onesBelow_eq_sum]
  simp [bitBias_eq, countOnes]

end BitCounts

/-- Settles O1: the loop adds up the bits, and such a sum is a cardinality. -/
theorem countOnesCountsTheSetBits : Obligations.CountOnesCountsTheSetBits :=
  ⟨fun _ v => ⟨countOnes_eq_card v, countOnes_le v⟩, fun _ => ⟨countOnes_zero, countOnes_allOnes⟩, by decide⟩

/-- Settles O2: the loop adds up the differences of neighbours, and equal bits have none. -/
theorem countTransitionsCountsTheChanges : Obligations.CountTransitionsCountsTheChanges := by
  refine ⟨fun n v => ⟨countTransitions_eq_card v, countTransitions_le v⟩, fun v => ?single, fun n => ⟨?zero, ?ones⟩,
    by decide, by decide, by decide⟩
  case single => exact Nat.le_zero.mp (countTransitions_le v)
  case zero => exact countTransitions_eq_zero fun i _ => BitVec.getLsbD_zero
  case ones => exact countTransitions_eq_zero (b := true) fun i hi => by simp [hi]

/-- Settles O3: the sum over the bits is twice the ones less the width, and the ones lie between 0 and the width. -/
theorem bitBiasIsOnesMinusZeros : Obligations.BitBiasIsOnesMinusZeros := by
  refine ⟨fun n v => ⟨bitBias_eq_sum v, bitBias_eq v, ?lower, ?upper⟩, fun n => ⟨?zero, ?ones⟩, by decide, by decide⟩
  case lower =>
    rw [bitBias_eq]
    omega
  case upper =>
    have := countOnes_le v
    rw [bitBias_eq]
    omega
  case zero => simp [bitBias_eq]
  case ones =>
    rw [bitBias_eq, countOnes_allOnes]
    omega

section Candidates

variable (w : Word)

/-- The bits of the XOR chain are the running ones (R53). -/
theorem getLsbD_xorChain {i : Nat} (h : i ≤ 7) : (xorChain w).getLsbD i = chainBit w i :=
  byteOfBits_getLsbD _ _ (Nat.lt_succ_of_le h)

theorem getLsbD_xorChain_zero : (xorChain w).getLsbD 0 = w.getLsbD 0 := getLsbD_xorChain w (Nat.zero_le 7)

theorem getLsbD_xorChain_succ {i : Nat} (h : i + 1 ≤ 7) :
    (xorChain w).getLsbD (i + 1) = ((xorChain w).getLsbD i ^^ w.getLsbD (i + 1)) := by
  rw [getLsbD_xorChain w h, getLsbD_xorChain w (Nat.le_of_succ_le h), chainBit]

/-- The XNOR mask leaves bit 0 out and takes bits 1 to 7 (R55). -/
theorem getLsbD_xnorMask : ∀ i ≤ 7, xnorMask.getLsbD i = decide (1 ≤ i) := by decide

/-- The XNOR candidate bit by bit: bit 0 of the XOR chain, and the complement of its bits 1 to 7 (R55). -/
theorem getLsbD_xnorCandidate {i : Nat} (h : i ≤ 7) :
    (xnorCandidate w).getLsbD i = ((xorChain w).getLsbD i ^^ decide (1 ≤ i)) := by
  rw [xnorCandidate, BitVec.getLsbD_xor, getLsbD_xnorMask i h]

theorem getLsbD_xnorCandidate_zero : (xnorCandidate w).getLsbD 0 = (xorChain w).getLsbD 0 :=
  (getLsbD_xnorCandidate w (Nat.zero_le 7)).trans (Bool.xor_false _)

end Candidates

/-- Settles O5: each bit of the chain is the one before it exclusive-or the word's, and the XNOR mask leaves bit 0 alone. -/
theorem xorChainFollowsTheRecurrence : Obligations.XorChainFollowsTheRecurrence := by
  refine ⟨fun w => ⟨getLsbD_xorChain_zero w, ?xnor⟩, ?chain, by decide, by decide, by decide, by decide⟩
  case xnor => rw [getLsbD_xnorCandidate_zero, getLsbD_xorChain_zero]
  case chain =>
    intro w n h1 h7
    obtain ⟨i, rfl⟩ := Nat.exists_eq_add_of_le' h1
    exact getLsbD_xorChain_succ w h7

/-- Settles O7: the XNOR candidate is the XOR chain under the mask 0xFE, whose bit 0 alone is unset. -/
theorem xnorCandidateComplementsBitsOneToSeven : Obligations.XnorCandidateComplementsBitsOneToSeven := by
  refine ⟨getLsbD_xnorCandidate_zero, ?complement, fun w => rfl, by decide, by decide, by decide, by decide⟩
  case complement =>
    intro w n h1 h7
    simp [getLsbD_xnorCandidate w h7, h1]

section Selection

variable {w : Word}

/-- R56: the tail's ones are the set bits among `word[1..7]`. -/
theorem tailOnes_eq_card : tailOnes w = (Finset.univ.filter (fun i : Fin 7 => w.getLsbD (i + 1) = true)).card := by
  simp [tailOnes, countOnes_eq_card, Nat.add_comm]

/-- Bit 0 is not in the tail (R56). -/
theorem tailOnes_flip_bit_zero : tailOnes (w ^^^ 0x01#8) = tailOnes w := by
  have tail : (0x01#8).extractLsb' 1 7 = 0#7 := by decide
  rw [tailOnes, BitVec.extractLsb'_xor, tail, BitVec.xor_zero, tailOnes]

/-- R57: the XNOR chain from four tail ones on. -/
theorem selectShortcut_eq_false_iff : selectShortcut w = false ↔ 4 ≤ tailOnes w := by
  rw [selectShortcut, Bool.not_eq_false', decide_eq_true_iff, tailThreshold]

/-- R57: the XOR chain below four tail ones. -/
theorem selectShortcut_eq_true_iff : selectShortcut w = true ↔ tailOnes w < 4 := by
  rw [← not_le, ← selectShortcut_eq_false_iff, Bool.not_eq_false]

/-- The selector bit of the chosen candidate is the shortcut rule's (R61). -/
@[simp] theorem chooseCandidate_snd : (chooseCandidate w).2 = selectShortcut w := by
  cases h : selectShortcut w <;> simp [chooseCandidate, h]

end Selection

/-- Settles O8: the count leaves out bit 0, the rule is its threshold at four, and ENC's symbol carries the rule's bit. -/
theorem selectorIsOneBelowFourTailOnes : Obligations.SelectorIsOneBelowFourTailOnes := by
  refine ⟨fun w => tailOnes_eq_card, fun w => countOnes_le _, by decide, by decide, by decide,
    fun w => ⟨selectShortcut_eq_false_iff.mpr, selectShortcut_eq_true_iff.mpr⟩, fun w => ?bitZero,
    by decide, by decide, by decide, by decide, by decide, by decide, by decide, fun w b => ?emitted⟩
  case bitZero => rw [selectShortcut, tailOnes_flip_bit_zero, selectShortcut]
  case emitted => rw [symbolSelector_encodeStep, chooseCandidate_snd]

/-- Settles O11: the pair is chosen by the shortcut rule's bit. -/
theorem chosenCandidateFollowsTheSelector : Obligations.ChosenCandidateFollowsTheSelector := by
  refine ⟨fun w => chooseCandidate_snd, fun w h => ?xor, fun w h => ?xnor, by decide, by decide, by decide, by decide⟩
  case xor => simp [chooseCandidate_fst, h]
  case xnor => simp [chooseCandidate_fst, h]

end Sys2Proof.Machine
end

section
/-! Proofs of the family 41_dc_balancer.md: the fields of a balanced symbol, and the two branches of its invert flag. -/

namespace Sys2Proof.Machine

open Sys2Proof

section Balance

variable (q : Candidate) (sel : Bool) (b : Int)

@[simp] theorem symbolInvert_balance : symbolInvert (balance q sel b).1 = invertFlag sel (bitBias q) b :=
  symbolInvert_makeSymbol _ _ _

@[simp] theorem symbolSelector_balance : symbolSelector (balance q sel b).1 = sel :=
  symbolSelector_makeSymbol _ _ _

@[simp] theorem symbolData_balance :
    symbolData (balance q sel b).1 = invertIf (invertFlag sel (bitBias q) b) q :=
  symbolData_makeSymbol _ _ _

/-- R67: the next bias counts all ten bits of the symbol. -/
theorem balance_snd : (balance q sel b).2 = b + bitBias (balance q sel b).1 := rfl

end Balance

section InvertFlag

variable {sel : Bool} {cb b : Int}

/-- R64, the tie branch. -/
theorem invertFlag_of_tie (h : b = 0 ∨ cb = 0) : invertFlag sel cb b = !sel :=
  if_pos h

/-- R65, the sign branch. -/
theorem invertFlag_eq_true_iff (hb : b ≠ 0) (hcb : cb ≠ 0) :
    invertFlag sel cb b = true ↔ (b < 0 ∧ 0 < cb) ∨ (0 < b ∧ cb < 0) := by
  rw [invertFlag, if_neg (not_or.mpr ⟨hb, hcb⟩), decide_eq_true_iff]

end InvertFlag

/-- A bias has the parity of the width (R52). -/
theorem bitBias_emod_two {n : Nat} (v : BitVec n) : bitBias v % 2 = (n : Int) % 2 := by
  rw [bitBias_eq]
  omega

/-- R63: a candidate's bias is even and lies between -8 and 8. -/
theorem bitBias_candidate (q : Candidate) : bitBias q % 2 = 0 ∧ -8 ≤ bitBias q ∧ bitBias q ≤ 8 := by
  obtain ⟨bounds, -⟩ := bitBiasIsOnesMinusZeros
  obtain ⟨-, -, lower, upper⟩ := bounds 8 q
  exact ⟨bitBias_emod_two q, lower, upper⟩

/-- Settles O13: the symbol's invert flag is the flag of the two branches, and in a tie it is the selector's complement. -/
theorem invertFlagFollowsTheTieAndSignBranches : Obligations.InvertFlagFollowsTheTieAndSignBranches := by
  intro q sel b
  refine ⟨bitBias_candidate q, fun htie => ?tie, fun hb hcb => ?sign⟩
  case tie =>
    rw [symbolInvert_balance, symbolSelector_balance, invertFlag_of_tie htie]
    cases sel with
    | true => exact ⟨rfl, .inl rfl⟩
    | false => exact ⟨rfl, .inr rfl⟩
  case sign =>
    rw [symbolInvert_balance]
    exact invertFlag_eq_true_iff hb hcb

/-- Settles O14: the balance assembles its symbol from these three fields and adds that symbol's bias. -/
theorem symbolAssemblyAndBiasUpdate : Obligations.SymbolAssemblyAndBiasUpdate := by
  intro q sel b
  refine ⟨symbolData_balance q sel b, symbolSelector_balance q sel b, symbolInvert_balance q sel b, ?number,
    balance_snd q sel b⟩
  case number =>
    rw [symbolData_balance]
    exact toNat_makeSymbol _ _ _

end Sys2Proof.Machine
end

section
/-! Proofs of the family 42_encoder.md: the bias of an assembled symbol, a word with its bit 0 flipped, and ENC and RST on a
channel that performs them. -/

namespace Sys2Proof.Machine

open Sys2Proof

section SymbolBias

/-- The ones of two values put together, counted over the low one and the first `k` bits of the high one. -/
theorem onesBelow_append {n m : Nat} (a : BitVec n) (b : BitVec m) (k : Nat) :
    onesBelow (a ++ b) (m + k) = countOnes b + onesBelow a k := by
  induction k with
  | zero => exact onesBelow_congr _ _ m fun i hi => by simp [BitVec.getLsbD_append, hi]
  | succ k ih =>
    have high : (a ++ b).getLsbD (m + k) = a.getLsbD k := by simp [BitVec.getLsbD_append]
    rw [← Nat.add_assoc, onesBelow, ih, high, onesBelow, Nat.add_assoc]

/-- The bias of two values put together is the sum of their biases. -/
theorem bitBias_append {n m : Nat} (a : BitVec n) (b : BitVec m) : bitBias (a ++ b) = bitBias a + bitBias b := by
  have ones : countOnes (a ++ b) = countOnes b + countOnes a :=
    (congrArg (onesBelow (a ++ b)) (Nat.add_comm n m)).trans (onesBelow_append a b n)
  rw [bitBias_eq, bitBias_eq, bitBias_eq, ones]
  push_cast
  ring

/-- Complementing a value turns its bias around. -/
theorem bitBias_not {n : Nat} (v : BitVec n) : bitBias (~~~v) = -bitBias v := by
  rw [bitBias_eq_sum, bitBias_eq_sum, ← Finset.sum_neg_distrib]
  refine Finset.sum_congr rfl fun i _ => ?_
  have flipped : (~~~v).getLsbD i = !v.getLsbD i := by simp
  rw [flipped]
  cases v.getLsbD i <;> rfl

theorem invertIf_true (v : BitVec 8) : invertIf true v = ~~~v := BitVec.xor_allOnes

/-- Inverting a value or not, its complement gives the complement. -/
theorem invertIf_not (inv : Bool) (v : BitVec 8) : invertIf inv (~~~v) = ~~~invertIf inv v := by
  cases inv with
  | true => rw [invertIf_true, invertIf_true]
  | false => rfl

/-- R69: the bias of a symbol is that of its two control bits and that of its data bits. -/
theorem bitBias_makeSymbol (inv sel : Bool) (d : BitVec 8) :
    bitBias (makeSymbol inv sel d) = bitBias (BitVec.ofBool inv) + bitBias (BitVec.ofBool sel) + bitBias d := by
  rw [makeSymbol, bitBias_append, bitBias_append]

/-- R73: the control bits of a tie differ, so they add nothing. -/
theorem bitBias_tie_control (sel : Bool) : bitBias (BitVec.ofBool (!sel)) + bitBias (BitVec.ofBool sel) = 0 := by
  revert sel
  decide

/-- Data of bias 0 has bias 0 inverted too. -/
theorem bitBias_invertIf_eq_zero {q : Candidate} (inv : Bool) (h : bitBias q = 0) : bitBias (invertIf inv q) = 0 := by
  cases inv with
  | true => rw [invertIf_true, bitBias_not, h, neg_zero]
  | false => exact h

/-- A candidate of bias 0 keeps the bias it is balanced at (R69). -/
theorem balance_snd_of_bitBias_eq_zero {q : Candidate} (sel : Bool) (b : Int) (h : bitBias q = 0) :
    (balance q sel b).2 = b := by
  have symbol : (balance q sel b).1 = makeSymbol (!sel) sel (invertIf (!sel) q) := by
    rw [balance, invertFlag_of_tie (.inr h)]
  rw [balance_snd, symbol, bitBias_makeSymbol, bitBias_tie_control, bitBias_invertIf_eq_zero _ h, zero_add, add_zero]

end SymbolBias

section FlippedBitZero

variable (w : Word)

/-- At bias 0 every word is in the tie branch (R64). -/
theorem symbolInvert_encodeStep_zero : symbolInvert (encodeStep w 0).1 = !selectShortcut w := by
  rw [encodeStep, symbolInvert_balance, invertFlag_of_tie (.inl rfl), chooseCandidate_snd]

/-- Bit 0 has no part in the selection (R57). -/
theorem selectShortcut_flip_bit_zero : selectShortcut (w ^^^ 0x01#8) = selectShortcut w := by
  rw [selectShortcut, tailOnes_flip_bit_zero, selectShortcut]

/-- Bit 0 stands in every bit of the chain (R53). -/
theorem chainBit_flip_bit_zero (n : Nat) : chainBit (w ^^^ 0x01#8) n = !chainBit w n := by
  induction n with
  | zero => simp [chainBit]
  | succ n ih =>
    have same : (w ^^^ 0x01#8).getLsbD (n + 1) = w.getLsbD (n + 1) := by simp
    rw [chainBit, ih, same, chainBit, Bool.not_xor]

theorem xorChain_flip_bit_zero : xorChain (w ^^^ 0x01#8) = ~~~xorChain w := by
  refine BitVec.eq_of_getLsbD_eq fun i hi => ?_
  have hi7 : i ≤ 7 := Nat.le_of_lt_succ hi
  have flipped : (~~~xorChain w).getLsbD i = !(xorChain w).getLsbD i := by simp [hi]
  rw [flipped, getLsbD_xorChain _ hi7, getLsbD_xorChain _ hi7, chainBit_flip_bit_zero]

theorem xnorCandidate_flip_bit_zero : xnorCandidate (w ^^^ 0x01#8) = ~~~xnorCandidate w := by
  rw [xnorCandidate, xorChain_flip_bit_zero, ← BitVec.not_xor_left, xnorCandidate]

theorem chooseCandidate_fst_flip_bit_zero : (chooseCandidate (w ^^^ 0x01#8)).1 = ~~~(chooseCandidate w).1 := by
  rw [chooseCandidate_fst, chooseCandidate_fst, chooseCandidate_snd, chooseCandidate_snd, selectShortcut_flip_bit_zero,
    xorChain_flip_bit_zero, xnorCandidate_flip_bit_zero, apply_ite (~~~·)]

/-- At bias 0 the invert flag is the selector's, so the data bits follow the candidate (R66). -/
theorem symbolData_encodeStep_flip_bit_zero :
    symbolData (encodeStep (w ^^^ 0x01#8) 0).1 = ~~~symbolData (encodeStep w 0).1 := by
  rw [symbolData_encodeStep, symbolData_encodeStep, symbolInvert_encodeStep_zero, symbolInvert_encodeStep_zero,
    selectShortcut_flip_bit_zero, chooseCandidate_fst_flip_bit_zero, invertIf_not]

end FlippedBitZero

section Performed

variable {s : State} {ch : Nat} {c : Channel} {w : Word}

/-- The range check of the unbounded register (R76). -/
theorem biasFits_unbounded {width : Option Nat} (h : width = none) (b : Int) : biasFits width b = true := by
  rw [h, biasFits]

/-- The range check of a finite register, in the numbers of R76. -/
theorem biasFits_finite_iff {W : Nat} {b : Int} :
    biasFits (some W) b = true ↔ -(2 : Int) ^ (W - 1) ≤ b ∧ b ≤ (2 : Int) ^ (W - 1) - 1 := by
  simp [biasFits]

theorem biasFits_finite_eq_false_iff {W : Nat} {b : Int} :
    biasFits (some W) b = false ↔ b < -(2 : Int) ^ (W - 1) ∨ (2 : Int) ^ (W - 1) - 1 < b := by
  rw [← Bool.not_eq_true, biasFits_finite_iff, not_and_or, not_le, not_le]

/-- Every word, in ENC's row, is read back as it was written (R43, R44). -/
theorem decode_enc_word (ch : Nat) (w : Word) : decode ⟨ch, 0b0000#4 ++ w⟩ = .ok (.enc ch w) := by
  obtain ⟨selected, -⟩ := Laws.TableRow.enc_words w
  rw [decode_of_encRow selected, wordField, BitVec.extractLsb'_append_eq_right]

variable (hc : s.channel? ch = some c) (hf : c.fault = none) (hs : c.slot = none)
include hc hf hs

/-- ENC whose new bias fits writes it and emits the symbol (R75). -/
theorem exec_enc_fits (hb : biasFits s.biasWidth (encodeStep w c.rb).2 = true) :
    exec (.enc ch w) s
      = .next (s.setChannel ch ((c.writeBias (encodeStep w c.rb).2).emitSymbol (encodeStep w c.rb).1)) := by
  rw [← encodeNext_fits hb]
  exact exec_free (op := .enc w) hc hf hs

/-- ENC whose new bias does not fit raises `BIAS_OVERFLOW` and does nothing else (R76). -/
theorem exec_enc_overflows (hb : biasFits s.biasWidth (encodeStep w c.rb).2 = false) :
    exec (.enc ch w) s = .next (s.setChannel ch
      (c.raiseFault (.biasOverflow (encodeWord (.enc ch w)) ch c.rb (encodeStep w c.rb).2))) := by
  rw [← encodeNext_overflows hb]
  exact exec_free (op := .enc w) hc hf hs

/-- RST writes 0 (R79). -/
theorem exec_rst_writes : exec (.rst ch) s = .next (s.setChannel ch (c.writeBias 0)) :=
  exec_free (op := .rst) hc hf hs

end Performed

/-- Settles O21: a channel that performs ENC does what the range check says; the corner cases are the tie at bias 0, the
selector's threshold, and a bit 0 that turns the whole candidate around. -/
theorem encWritesTheBiasAndEmitsTheSymbol : Obligations.EncWritesTheBiasAndEmitsTheSymbol := by
  refine ⟨fun s ch w c hc hf hs hb => exec_enc_fits hc hf hs hb,
    fun s ch w c hc hf hs hb => exec_enc_overflows hc hf hs hb,
    fun w b h => balance_snd_of_bitBias_eq_zero _ b h, symbolInvert_encodeStep_zero, fun w => ⟨fun h => ?xnor, fun h => ?xor⟩,
    fun w => ⟨selectShortcut_flip_bit_zero w, chooseCandidate_fst_flip_bit_zero w, symbolData_encodeStep_flip_bit_zero w⟩,
    by decide, decode_enc_word⟩
  case xnor => simp [chooseCandidate_fst, selectShortcut_eq_false_iff.mpr h.ge]
  case xor => simp [chooseCandidate_fst, selectShortcut_eq_true_iff.mpr (h.trans_lt (by decide))]

/-- Settles O22: the range check in R76's numbers decides between the two ends of ENC. -/
theorem encFaultsExactlyOutsideTheRegisterRange : Obligations.EncFaultsExactlyOutsideTheRegisterRange := by
  refine ⟨fun s ch w c W hc hf hs hW _ => ⟨fun outside => ?outside, fun lower upper => ?inside⟩,
    fun s ch w c hc hf hs hW => exec_enc_fits hc hf hs (biasFits_unbounded hW _)⟩
  case outside => exact exec_enc_overflows hc hf hs (hW ▸ biasFits_finite_eq_false_iff.mpr outside)
  case inside => exact exec_enc_fits hc hf hs (hW ▸ biasFits_finite_iff.mpr ⟨lower, upper⟩)

/-- Settles O23: RST is performed on the channel as it is and on the channel as an RST left it, and a faulted one passes it
over. -/
theorem rstWritesZeroToTheBias : Obligations.RstWritesZeroToTheBias := by
  refine ⟨fun s ch c hc hf hs => ?performed, fun s ch c f hc hf => exec_faulted (op := .rst) hc hf,
    fun ch => decode_of_rstRow (q := ⟨ch, 0x800#12⟩) (Laws.TableRow.rst ch).1⟩
  have hreset := setChannel_channel?_self s ch c (c.writeBias 0) hc
  refine ⟨exec_rst_writes hc hf hs, ?again, fun hrb => ?atZero, fun hW => ?nextEnc⟩
  case again =>
    exact (exec_rst_writes hreset hf hs).trans (congrArg _ (setChannel_setChannel ..))
  case atZero =>
    have same : c.writeBias 0 = c := by rw [Channel.writeBias, ← hrb]
    rw [exec_rst_writes hc hf hs, same, setChannel_eq_self s ch c hc]
  case nextEnc =>
    have start : encodeStep 0x00#8 0 = (0x100#10, -8) := by decide
    refine (exec_enc_fits hreset hf hs (biasFits_unbounded hW _)).trans ?_
    rw [setChannel_setChannel, writeBias_rb, start]
    rfl

end Sys2Proof.Machine
end

section
/-! Proofs of the family 43_decoder.md: the XOR chain that a symbol is taken back to, and the decoded word bit by bit. -/

namespace Sys2Proof.Machine

open Sys2Proof

section DecodedWord

/-- The candidate as it was generated: the data bits, un-inverted where the invert flag is set (R82). -/
def generatedCandidate (s : Symbol) : Candidate := invertIf (symbolInvert s) (symbolData s)

/-- The XOR chain the word is recovered from: the generated candidate, or where the selector bit is 0 that candidate with
bits 1 to 7 complemented (R82). -/
def decodedChain (s : Symbol) : Candidate :=
  if symbolSelector s then generatedCandidate s else generatedCandidate s ^^^ xnorMask

variable (s : Symbol)

theorem decodeSymbol_eq : decodeSymbol s = byteOfBits (recoveredBit (decodedChain s)) := rfl

/-- The bits of the decoded word are the recovered ones (R82). -/
theorem getLsbD_decodeSymbol {i : Nat} (h : i ≤ 7) : (decodeSymbol s).getLsbD i = recoveredBit (decodedChain s) i := by
  rw [decodeSymbol_eq, byteOfBits_getLsbD _ _ (Nat.lt_succ_of_le h)]

theorem getLsbD_decodeSymbol_zero : (decodeSymbol s).getLsbD 0 = (decodedChain s).getLsbD 0 :=
  getLsbD_decodeSymbol s (Nat.zero_le 7)

theorem getLsbD_decodeSymbol_succ {i : Nat} (h : i + 1 ≤ 7) :
    (decodeSymbol s).getLsbD (i + 1) = ((decodedChain s).getLsbD i ^^ (decodedChain s).getLsbD (i + 1)) :=
  getLsbD_decodeSymbol s h

/-- Every symbol, in DEC's row, is read back as it was written (R43, R44). -/
theorem decode_dec_word (ch : Nat) : decode ⟨ch, 0b01#2 ++ s⟩ = .ok (.dec s) := by
  obtain ⟨selected, -⟩ := Laws.TableRow.dec_words s
  rw [decode_of_decRow selected, symbolField, BitVec.extractLsb'_append_eq_right]

end DecodedWord

/-- Settles O25: DEC emits the decoded word in every state, and each bit of that word is recovered from the chain. -/
theorem decAppendsTheRecoveredWord : Obligations.DecAppendsTheRecoveredWord := by
  refine ⟨fun symbol => ⟨decodeSymbol symbol, fun s => exec_dec symbol, generatedCandidate symbol, decodedChain symbol,
    rfl, rfl, getLsbD_decodeSymbol_zero symbol, ?recurrence⟩, by decide, by decide, by decide,
    fun ch symbol => decode_dec_word symbol ch⟩
  case recurrence =>
    intro n h1 h7
    obtain ⟨i, rfl⟩ := Nat.exists_eq_add_of_le' h1
    exact getLsbD_decodeSymbol_succ symbol h7

end Sys2Proof.Machine
end

section
/-! Proofs of the family 60_exceptions.md: a fault writes nothing but its mark, a faulted channel is never changed, and the
order in which an issued request is checked. -/

namespace Sys2Proof

section WordsOfDecodedRequests

/-- A word that ENC's row selects is ENC's four bits and its operand (R43). -/
theorem encRow_word {r : RequestWord} (h : encRow.selects r = true) : 0b0000#4 ++ wordField r = r := by
  have row := and_append_eq_append_iff r (BitVec.allOnes 4) 0#4 0#8 0#8
  rw [BitVec.and_allOnes, BitVec.and_zero, and_iff_left rfl] at row
  rw [← row.mp (beq_iff_eq.mp h)]
  exact BitVec.extractLsb'_append_extractLsb'

/-- A word that DEC's row selects is DEC's two bits and its operand (R43). -/
theorem decRow_word {r : RequestWord} (h : decRow.selects r = true) : 0b01#2 ++ symbolField r = r := by
  rw [← (decRow_selects_iff r).mp h]
  exact BitVec.extractLsb'_append_extractLsb'

/-- RST's row selects one word (R43). -/
theorem rstRow_word {r : RequestWord} (h : rstRow.selects r = true) : 0b100000000000#12 = r := by
  have masked : r &&& BitVec.allOnes 12 = 0b100000000000#12 := beq_iff_eq.mp h
  rw [← masked, BitVec.and_allOnes]

/-- The word of a request that decodes is the word of the operation it decodes to (R43). -/
theorem encodeWord_of_decode {q : Request} {i : Instr} (h : decode q = .ok i) : encodeWord i = q.word := by
  by_cases henc : encRow.selects q.word = true
  · rw [decode_of_encRow henc] at h
    cases h
    exact encRow_word henc
  by_cases hdec : decRow.selects q.word = true
  · rw [decode_of_decRow hdec] at h
    cases h
    exact decRow_word hdec
  by_cases hrst : rstRow.selects q.word = true
  · rw [decode_of_rstRow hrst] at h
    cases h
    exact rstRow_word hrst
  · rw [decode_of_isReserved (isReserved_iff_no_row.mpr ⟨henc, hdec, hrst⟩)] at h
    cases h

end WordsOfDecodedRequests

end Sys2Proof

namespace Sys2Proof.Machine

open Sys2Proof

section PreciseFaults

variable {s t : State} {ch k : Nat} {c d : Channel} {f : Fault}

theorem channel?_congr (h : t.channels = s.channels) : t.channel? k = s.channel? k := by
  rw [State.channel?, h, State.channel?]

/-- A step's effect on the channels: it keeps them all; or it replaces one that was not faulted, by one that is not faulted
either or by the same one with a fault mark, and then `DOUT` and the refusal mark stay (R92). -/
theorem Effect.channels_cases (e : Effect s t) :
    t.channels = s.channels
      ∨ ∃ k c d, s.channel? k = some c ∧ c.fault = none ∧ t.channels = (s.setChannel k d).channels
          ∧ t.dout = s.dout ∧ t.refusalMark = s.refusalMark ∧ (d.fault = none ∨ ∃ f, d = c.raiseFault f) := by
  cases e with
  | hold channels => exact .inl channels
  | refuse r channels => exact .inl channels
  | word w channels => exact .inl channels
  | channel k c d here free channels dout mark how =>
    refine .inr ⟨k, c, d, here, free, channels, dout, mark, ?_⟩
    obtain ⟨held, op, -, rfl⟩ | ⟨w, -, rfl⟩ | ⟨op, -, rfl⟩ | ⟨w, -, rfl⟩ | rfl := how
    · exact .inr ⟨_, rfl⟩
    · exact .inr ⟨_, rfl⟩
    · exact .inl free
    · exact .inl free
    · exact .inl free

/-- No step changes a faulted channel: the one it replaces was not faulted (R92, R93). -/
theorem Effect.keeps_faulted (e : Effect s t) (hc : s.channel? ch = some c) (hf : c.fault = some f) :
    t.channel? ch = some c := by
  obtain hkept | ⟨k, b, d, hb, hfree, hset, -⟩ := e.channels_cases
  · rw [channel?_congr hkept, hc]
  · have hne : ch ≠ k := by
      rintro rfl
      obtain rfl := Option.some.inj (hb.symm.trans hc)
      simp [hfree] at hf
    rw [channel?_congr hset, setChannel_channel?_other s k ch d hne, hc]

/-- A step that sets a fault mark writes nothing else (R92). -/
theorem Effect.fault_writes_only_mark (e : Effect s t) (hc : s.channel? ch = some c) (hfree : c.fault = none)
    (hd : t.channel? ch = some d) (hf : d.fault = some f) :
    d = c.raiseFault f ∧ (∀ k, k ≠ ch → t.channel? k = s.channel? k)
      ∧ t.dout = s.dout ∧ t.refusalMark = s.refusalMark := by
  have hne : d ≠ c := by
    rintro rfl
    simp [hfree] at hf
  obtain hkept | ⟨k, b, b', hb, -, hset, hdout, hmark, hhow⟩ := e.channels_cases
  · rw [channel?_congr hkept, hc] at hd
    exact absurd (Option.some.inj hd).symm hne
  · rw [channel?_congr hset] at hd
    obtain ⟨rfl, rfl, rfl⟩ := setChannel_changed hb hc hd hne
    refine ⟨?_, fun j hj => ?_, hdout, hmark⟩
    · obtain hnone | ⟨g, rfl⟩ := hhow
      · simp [hnone] at hf
      · rw [Option.some.inj hf]
    · rw [channel?_congr hset, setChannel_channel?_other s k j b' hj]

/-- A state with a fault mark is not final (R107). -/
theorem final_eq_false_of_faulted (hc : s.channel? ch = some c) (hf : c.fault = some f) : s.final = false := by
  have marked : s.channels.all (fun c => c.fault.isNone) = false :=
    List.all_eq_false.mpr ⟨c, List.mem_of_getElem? hc, by simp [hf]⟩
  simp [State.final, State.clean, marked]

end PreciseFaults

/-- Settles O38: a step replaces no faulted channel, and where it sets a mark, that mark is all it writes. -/
theorem faultsArePreciseAndNeverCleared : Obligations.FaultsArePreciseAndNeverCleared := by
  refine ⟨?kept, ?precise, ?passedOver, ?dec⟩
  case kept =>
    intro s t ch c f h hc hf
    obtain ⟨effect, -⟩ := step_effect h
    exact effect.keeps_faulted hc hf
  case precise =>
    intro s t ch c d f h hc hfree hd hf
    obtain ⟨effect, -⟩ := step_effect h
    exact effect.fault_writes_only_mark hc hfree hd hf
  case passedOver =>
    intro s ch c f w hc hf
    exact ⟨exec_faulted (op := .enc w) hc hf, exec_faulted (op := .rst) hc hf⟩
  case dec =>
    intro s ch c f symbol hc hf
    exact ⟨final_eq_false_of_faulted hc hf, exec_dec symbol⟩

section OrderOfChecks

variable {s : State} {q : Request} {ch : Nat} {c : Channel} {rest : List Turn}

/-- An operation addressed to an unfaulted channel whose slot is occupied raises `CONCURRENT_ACCESS` (R91). -/
theorem exec_occupied {op held : SlotRequest} (hc : s.channel? ch = some c) (hf : c.fault = none)
    (hs : c.slot = some held) :
    exec (op.instr ch) s = .next (s.setChannel ch
      (c.raiseFault (.concurrentAccess held.requestWord op.requestWord ch))) := by
  rw [exec_slotRequest, onChannel_occupied hc hf hs]

/-- The step of an issued request that decodes is its operation (R8). -/
theorem step_issue {i : Instr} (ht : s.turns = .issue q :: rest) (hq : decode q = .ok i) :
    step s = exec i (s.withTurns rest) := by
  rw [step_turn ht]
  simp [runTurn, issueRequest, hq]

/-- The word of a request that decodes to an ENC or an RST is the one a fault records of it (R89). -/
theorem requestWord_of_decode {op : SlotRequest} (hq : decode q = .ok (op.instr ch)) : op.requestWord = q.word := by
  rw [← encodeWord_of_decode hq]
  cases op with
  | enc w => rfl
  | rst => rfl

/-- An issued ENC or RST finds the slot occupied before anything of it is performed (R94). -/
theorem step_issue_occupied {op held : SlotRequest} (ht : s.turns = .issue q :: rest)
    (hq : decode q = .ok (op.instr ch)) (hc : s.channel? ch = some c) (hf : c.fault = none) (hs : c.slot = some held) :
    step s = .next ((s.setChannel ch
      (c.raiseFault (.concurrentAccess held.requestWord q.word ch))).withTurns rest) := by
  rw [step_issue ht hq, ← requestWord_of_decode hq, ← setChannel_withTurns]
  exact exec_occupied hc hf hs

end OrderOfChecks

/-- Settles O40: the decoder refuses first, then the slot is looked at, then the range of the new bias. -/
theorem checksComeInTheRulesOrder : Obligations.ChecksComeInTheRulesOrder := by
  intro s q c rest ht hc hf
  have hc' : (s.withTurns rest).channel? q.ch = some c := hc
  refine ⟨fun hr => step_reserved hr (.inl ht), fun w held hq hs => step_issue_occupied (op := .enc w) ht hq hc hf hs,
    fun held hq hs => step_issue_occupied (op := .rst) ht hq hc hf hs, ?overflows, ?fits, ?rst⟩
  case overflows =>
    intro w hq hs hb
    rw [step_issue ht hq, ← encodeWord_of_decode hq]
    exact exec_enc_overflows hc' hf hs hb
  case fits =>
    intro w hq hs hb
    rw [step_issue ht hq]
    exact exec_enc_fits hc' hf hs hb
  case rst =>
    intro hq hs
    rw [step_issue ht hq]
    exact exec_rst_writes hc' hf hs

end Sys2Proof.Machine
end

section
/-! Proofs of the family other, what a step keeps: the change a step can make to one channel, and the invariants it has. -/

namespace Sys2Proof.Machine

open Sys2Proof

/-- What a step can make of the channel `c` of number `ch`: the five ways of `Effect.channel`. -/
inductive Channel.Change (width : Option Nat) (ch : Nat) (c : Channel) : Channel → Prop where
  | concurrent (held op : SlotRequest) (occupied : c.slot = some held) :
      Change width ch c (c.raiseFault (.concurrentAccess held.requestWord op.requestWord ch))
  | overflow (w : Word) (outside : biasFits width (encodeStep w c.rb).2 = false) :
      Change width ch c (c.raiseFault (.biasOverflow (encodeWord (.enc ch w)) ch c.rb (encodeStep w c.rb).2))
  | fill (op : SlotRequest) (empty : c.slot = none) : Change width ch c (c.fillSlot (some op))
  | encode (w : Word) (inside : biasFits width (encodeStep w c.rb).2 = true) :
      Change width ch c (((c.fillSlot none).writeBias (encodeStep w c.rb).2).emitSymbol (encodeStep w c.rb).1)
  | reset : Change width ch c ((c.fillSlot none).writeBias biasReset)

section StepChanges

variable {s t : State} {ch : Nat} {c d : Channel}

/-- A step keeps all channels, or makes one of the five changes to one that is not faulted and leaves `DOUT` as it is. -/
theorem Effect.change_cases (e : Effect s t) :
    t.channels = s.channels
      ∨ ∃ k c d, s.channel? k = some c ∧ c.fault = none ∧ Channel.Change s.biasWidth k c d
          ∧ t.channels = (s.setChannel k d).channels ∧ t.dout = s.dout := by
  cases e with
  | hold channels => exact .inl channels
  | refuse r channels => exact .inl channels
  | word w channels => exact .inl channels
  | channel k c d here free channels dout mark how =>
    refine .inr ⟨k, c, d, here, free, ?_, channels, dout⟩
    obtain ⟨held, op, hs, rfl⟩ | ⟨w, hb, rfl⟩ | ⟨op, hs, rfl⟩ | ⟨w, hb, rfl⟩ | rfl := how
    · exact .concurrent held op hs
    · exact .overflow w hb
    · exact .fill op hs
    · exact .encode w hb
    · exact .reset

/-- A step keeps a channel as it is, or changes it in one of the five ways and then keeps the other channels and `DOUT`. -/
theorem step_change (h : step s = .next t) (hc : s.channel? ch = some c) (hd : t.channel? ch = some d) :
    d = c ∨ (c.fault = none ∧ Channel.Change s.biasWidth ch c d ∧ t.dout = s.dout
      ∧ ∀ k, k ≠ ch → t.channel? k = s.channel? k) := by
  obtain ⟨effect, -⟩ := step_effect h
  by_cases hne : d = c
  · exact .inl hne
  obtain hkept | ⟨k, b, b', hb, hfree, hchange, hset, hdout⟩ := effect.change_cases
  · rw [channel?_congr hkept, hc] at hd
    exact .inl (Option.some.inj hd).symm
  · rw [channel?_congr hset] at hd
    obtain ⟨rfl, rfl, rfl⟩ := setChannel_changed hb hc hd hne
    refine .inr ⟨hfree, hchange, hdout, fun j hj => ?_⟩
    rw [channel?_congr hset, setChannel_channel?_other s k j b' hj]

/-- No step changes the number of channels (R97). -/
theorem step_channels_length (h : step s = .next t) : t.channels.length = s.channels.length := by
  obtain ⟨effect, -⟩ := step_effect h
  obtain hkept | ⟨k, b, b', -, -, -, hset, -⟩ := effect.change_cases
  · rw [hkept]
  · rw [hset, setChannel_length]

/-- A channel after a step was there before it. -/
theorem exists_channel_before (h : step s = .next t) (hd : t.channel? ch = some d) : ∃ c, s.channel? ch = some c := by
  rw [← Option.isSome_iff_exists, channel?_isSome_iff, ← step_channels_length h]
  exact lt_of_channel? t ch d hd

/-- A property of a channel and its number that every change keeps is kept by every step. -/
theorem step_keeps {P : Nat → Channel → Prop}
    (hchange : ∀ ch c d, c.fault = none → P ch c → Channel.Change s.biasWidth ch c d → P ch d)
    (h : step s = .next t) (hs : ∀ ch c, s.channel? ch = some c → P ch c) :
    ∀ ch d, t.channel? ch = some d → P ch d := by
  intro ch d hd
  obtain ⟨c, hc⟩ := exists_channel_before h hd
  obtain rfl | ⟨hfree, hcd, -⟩ := step_change h hc hd
  · exact hs ch d hc
  · exact hchange ch c d hfree (hs ch c hc) hcd

/-- A check of all channels, by their numbers. -/
theorem channels_all_iff {p : Channel → Bool} :
    s.channels.all p = true ↔ ∀ ch c, s.channel? ch = some c → p c = true := by
  simp only [List.all_eq_true, List.mem_iff_getElem?, State.channel?]
  exact ⟨fun h ch c hc => h c ⟨ch, hc⟩, fun h c ⟨ch, hc⟩ => h ch c hc⟩

end StepChanges

section Invariants

variable {s t : State} {width : Option Nat} {ch : Nat} {c d : Channel}

/-- R18's launch states, by the channels' numbers. -/
theorem legal_iff : s.legal = true ↔ 1 ≤ s.channels.length ∧ s.biasWidth ≠ some 0
    ∧ ∀ ch c, s.channel? ch = some c → biasFits s.biasWidth c.rb = true := by
  simp only [State.legal, Bool.and_eq_true, decide_eq_true_iff, channels_all_iff, and_assoc]

theorem evenBiases_iff : s.evenBiases = true ↔ ∀ ch c, s.channel? ch = some c → c.rb % 2 = 0 := by
  simp only [State.evenBiases, channels_all_iff, decide_eq_true_iff]

/-- Every register holds the bias that an RST writes. -/
theorem biasFits_zero : ∀ width, biasFits width 0 = true
  | none => rfl
  | some W => biasFits_finite_iff.mpr
      ⟨neg_nonpos.mpr (by positivity), sub_nonneg.mpr (one_le_pow₀ one_le_two)⟩

/-- A bias is written only by an ENC whose new bias fits, or by an RST (R20, R76). -/
theorem Channel.Change.biasFits (h : Channel.Change width ch c d) (hc : biasFits width c.rb = true) :
    biasFits width d.rb = true := by
  cases h with
  | concurrent held op _ => exact hc
  | overflow w _ => exact hc
  | fill op _ => exact hc
  | encode w inside => exact inside
  | reset => exact biasFits_zero width

/-- The bias of a symbol is even, for it has ten bits (R72). -/
theorem encodeStep_even {w : Word} {b : Int} (h : b % 2 = 0) : (encodeStep w b).2 % 2 = 0 := by
  have := bitBias_emod_two (encodeStep w b).1
  rw [encodeStep_bias]
  omega

theorem Channel.Change.even (h : Channel.Change width ch c d) (hc : c.rb % 2 = 0) : d.rb % 2 = 0 := by
  cases h with
  | concurrent held op _ => exact hc
  | overflow w _ => exact hc
  | fill op _ => exact hc
  | encode w _ => exact encodeStep_even hc
  | reset => rfl

/-- A channel without a mark has no false one. -/
theorem markTrue_of_unfaulted (h : c.fault = none) : c.markTrue width ch := by
  simp [Channel.markTrue, h]

/-- The mark a change sets records the channel as it is, and the other changes set none (R89, R92). -/
theorem Channel.Change.markTrue (h : Channel.Change width ch c d) (hfree : c.fault = none) : d.markTrue width ch := by
  cases h with
  | concurrent held op occupied => exact ⟨rfl, ⟨held, occupied, rfl⟩, op, rfl⟩
  | overflow w outside => exact ⟨rfl, rfl, outside, w, rfl, rfl⟩
  | fill op _ => exact markTrue_of_unfaulted hfree
  | encode w _ => exact markTrue_of_unfaulted hfree
  | reset => exact markTrue_of_unfaulted hfree

/-- A change lengthens `OUT` by one symbol or not at all (R17). -/
theorem Channel.Change.out (h : Channel.Change width ch c d) :
    ∃ more : List Symbol, d.out = c.out ++ more ∧ more.length ≤ 1 := by
  cases h with
  | concurrent held op _ => exact ⟨[], by simp⟩
  | overflow w _ => exact ⟨[], by simp⟩
  | fill op _ => exact ⟨[], by simp⟩
  | encode w _ => exact ⟨[(encodeStep w c.rb).1], by simp⟩
  | reset => exact ⟨[], by simp⟩

/-- A step lengthens `DOUT` by one word or not at all (R17). -/
theorem Effect.dout (e : Effect s t) : ∃ more : List Word, t.dout = s.dout ++ more ∧ more.length ≤ 1 := by
  cases e with
  | hold _ dout => exact ⟨[], by simp [dout]⟩
  | refuse r _ dout => exact ⟨[], by simp [dout]⟩
  | word w _ dout => exact ⟨[w], by simp [dout]⟩
  | channel k c d _ _ _ dout => exact ⟨[], by simp [dout]⟩

/-- No step clears a mark, so a state is clean if the next one is (R92, R107). -/
theorem clean_of_step_clean (h : step s = .next t) (ht : t.clean = true) : s.clean = true := by
  obtain ⟨effect, -⟩ := step_effect h
  obtain ⟨-, keeps_refusal, -⟩ := reservedRequestSetsTheRefusalMark
  simp only [State.clean, Bool.and_eq_true, channels_all_iff, Option.isNone_iff_eq_none] at ht ⊢
  obtain ⟨hfaults, hmark⟩ := ht
  refine ⟨fun ch c hc => ?_, ?_⟩
  · by_contra hf
    obtain ⟨f, hf⟩ := Option.ne_none_iff_exists'.mp hf
    exact absurd ((hfaults ch c (effect.keeps_faulted hc hf)).symm.trans hf) nofun
  · by_contra hr
    obtain ⟨r, hr⟩ := Option.ne_none_iff_exists'.mp hr
    exact absurd (hmark.symm.trans (keeps_refusal s t r h hr)) nofun

/-- A run of one step more is a step and the rest of the run. -/
theorem runSteps_succ {k : Nat} (h : step s = .next t) : runSteps (k + 1) s = runSteps k t := by
  simp [runSteps, h]

theorem clean_of_run_clean {k : Nat} (h : runSteps k s = .next t) (ht : t.clean = true) : s.clean = true := by
  induction k generalizing s with
  | zero =>
    cases h
    exact ht
  | succ k ih =>
    cases hstep : step s with
    | next u =>
      rw [runSteps_succ hstep] at h
      exact clean_of_step_clean hstep (ih h)
    | fault f => simp [runSteps, hstep] at h
    | refused r => simp [runSteps, hstep] at h

end Invariants

/-- Settles O41: a bias is written only by an ENC that was found to fit, and by RST, whose 0 always fits. -/
theorem stepKeepsBiasesLegal : Obligations.StepKeepsBiasesLegal := by
  intro s t hs h
  obtain ⟨hlen, hwidth, hfits⟩ := legal_iff.mp hs
  obtain ⟨-, hw, -⟩ := step_effect h
  refine legal_iff.mpr ⟨?_, ?_, ?_⟩
  · rwa [step_channels_length h]
  · rwa [hw]
  · rw [hw]
    exact step_keeps (P := fun _ c => biasFits s.biasWidth c.rb = true) (fun _ _ _ _ hc hcd => hcd.biasFits hc) h hfits

/-- Settles O42: ENC adds the bias of a symbol, which is even, and RST writes 0. -/
theorem stepKeepsBiasesEven : Obligations.StepKeepsBiasesEven := by
  intro s t hs h
  exact evenBiases_iff.mpr (step_keeps (fun _ _ _ _ hc hcd => hcd.even hc) h (evenBiases_iff.mp hs))

/-- Settles O43: a channel that a step changes had no mark, and a mark it then gets records the channel as it is. -/
theorem stepKeepsFaultMarksTrue : Obligations.StepKeepsFaultMarksTrue := by
  intro s t hs h
  obtain ⟨-, hw, -⟩ := step_effect h
  rw [State.marksTrue, hw]
  exact step_keeps (fun _ _ _ hfree _ hcd => hcd.markTrue hfree) h hs

/-- Settles O47: a step emits a word, or changes one channel, whose trace only an encoded word lengthens. -/
theorem tracesOnlyGrowByOneValue : Obligations.TracesOnlyGrowByOneValue := by
  intro s t h
  obtain ⟨effect, -⟩ := step_effect h
  refine ⟨effect.dout, fun ch c d hc hd => ?_⟩
  obtain rfl | ⟨-, hcd, hdout, hothers⟩ := step_change h hc hd
  · exact ⟨[], by simp⟩
  · obtain ⟨more, hmore, hlen⟩ := hcd.out
    exact ⟨more, hmore, hlen, fun _ => ⟨hdout, hothers⟩⟩

/-- Settles O55, by induction on the run: no step clears a mark. -/
theorem finalRunsWereAlwaysClean : Obligations.FinalRunsWereAlwaysClean := by
  refine ⟨fun k s t h ht => clean_of_run_clean h ht, fun k s t h ht => clean_of_run_clean h ?_⟩
  rw [State.final, Bool.and_eq_true] at ht
  exact ht.2

/-- Settles O46: a step replaces channels one for one and never writes the width. -/
theorem parametersNeverChange : Obligations.ParametersNeverChange := by
  intro s t h
  obtain ⟨-, hw, -⟩ := step_effect h
  exact ⟨hw, step_channels_length h⟩

/-- Settles O45: at creation every channel holds bias 0 and no mark. -/
theorem creationMeetsTheInvariants : Obligations.CreationMeetsTheInvariants := by
  have created : ∀ p : Config, p.wf = true →
      (State.create p).legal = true ∧ (State.create p).evenBiases = true ∧ (State.create p).marksTrue := by
    intro p hp
    simp only [Config.wf, Bool.and_eq_true, decide_eq_true_iff] at hp
    obtain ⟨hchannels, hwidth⟩ := hp
    have bias : ∀ ch c, (State.create p).channel? ch = some c → c.rb = 0 := fun ch c hc => (create_channel?_fields hc).1
    refine ⟨legal_iff.mpr ⟨by rwa [create_length], hwidth, fun ch c hc => ?_⟩,
      evenBiases_iff.mpr fun ch c hc => ?_, fun ch c hc => ?_⟩
    · rw [bias ch c hc]
      exact biasFits_zero _
    · rw [bias ch c hc, Int.zero_emod]
    · obtain ⟨-, hf, -⟩ := create_channel?_fields hc
      exact markTrue_of_unfaulted hf
  exact ⟨created, created Config.standard (by decide)⟩

end Sys2Proof.Machine
end

section
/-! Proofs of the family other, words and symbols: the XOR chain and its inverse, the transitions of the two candidates, and
the symbols that decode to a word. -/

namespace Sys2Proof.Machine

open Sys2Proof

section ChainInverse

variable (w : Word) (c : Candidate)

/-- A bit of the chain is the exclusive-or of the word's bits up to it (R54). -/
theorem chainBit_eq_foldl (n : Nat) :
    chainBit w n = ((List.range (n + 1)).map (fun k => w.getLsbD k)).foldl Bool.xor false := by
  induction n with
  | zero => simp [chainBit]
  | succ n ih => simp [chainBit, ih, List.range_succ (n := n + 1)]

/-- Neighbours of the XOR chain differ exactly where the word has a bit (R54). -/
theorem xorChain_neighbours {i : Nat} (h : i + 1 ≤ 7) :
    ((xorChain w).getLsbD i ^^ (xorChain w).getLsbD (i + 1)) = w.getLsbD (i + 1) := by
  rw [getLsbD_xorChain_succ w h]
  exact Bool.bne_self_left _ _

/-- The inverse chain recovers the bits as the decoder does (R54, R82). -/
theorem getLsbD_unchain {i : Nat} (h : i ≤ 7) : (unchain c).getLsbD i = recoveredBit c i := by
  rw [unchain, BitVec.getLsbD_xor, BitVec.getLsbD_shiftLeft]
  cases i with
  | zero => simp [recoveredBit]
  | succ i => simp [recoveredBit, Nat.lt_succ_of_le h, Bool.xor_comm]

theorem unchain_eq_byteOfBits : unchain c = byteOfBits (recoveredBit c) :=
  BitVec.eq_of_getLsbD_eq fun i hi => by rw [getLsbD_unchain c (Nat.le_of_lt_succ hi), byteOfBits_getLsbD _ _ hi]

/-- Unchaining the chain leaves the word: neighbours of the chain differ where the word has a bit. -/
@[simp] theorem unchain_xorChain : unchain (xorChain w) = w := by
  refine BitVec.eq_of_getLsbD_eq fun i hi => ?_
  rw [getLsbD_unchain _ (Nat.le_of_lt_succ hi)]
  cases i with
  | zero => exact getLsbD_xorChain_zero w
  | succ i => exact xorChain_neighbours w (Nat.le_of_lt_succ hi)

/-- The chain of the recovered bits runs through the candidate's bits again. -/
theorem chainBit_unchain {i : Nat} (h : i ≤ 7) : chainBit (unchain c) i = c.getLsbD i := by
  induction i with
  | zero => exact getLsbD_unchain c h
  | succ i ih =>
    rw [chainBit, ih (Nat.le_of_succ_le h), getLsbD_unchain c h]
    exact Bool.bne_self_left _ _

@[simp] theorem xorChain_unchain : xorChain (unchain c) = c :=
  BitVec.eq_of_getLsbD_eq fun i hi => by
    have hi7 : i ≤ 7 := Nat.le_of_lt_succ hi
    rw [getLsbD_xorChain _ hi7, chainBit_unchain c hi7]

theorem unchain_eq_iff : unchain c = w ↔ c = xorChain w :=
  ⟨fun h => by rw [← h, xorChain_unchain], fun h => by rw [h, unchain_xorChain]⟩

theorem unchain_xor (d : Candidate) : unchain (c ^^^ d) = unchain c ^^^ unchain d := by
  rw [unchain, unchain, unchain, BitVec.shiftLeft_xor_distrib]
  ac_rfl

end ChainInverse

section Transitions

variable {w : Word}

/-- The ones among the word's bits 2 to 7, which both candidates have as transitions (R59). -/
def upperOnes (w : Word) : Nat := countOnes (w.extractLsb' 2 6)

theorem upperOnes_le : upperOnes w ≤ 6 := countOnes_le _

/-- R56's count, cut at bit 1. -/
theorem tailOnes_eq : tailOnes w = (w.getLsbD 1).toNat + upperOnes w := by
  have loop : ∀ k ≤ 6,
      onesBelow (w.extractLsb' 1 7) (k + 1) = (w.getLsbD 1).toNat + onesBelow (w.extractLsb' 2 6) k := by
    intro k
    induction k with
    | zero => simp [onesBelow]
    | succ k ih =>
      intro hk
      have low : (w.extractLsb' 1 7).getLsbD (k + 1) = w.getLsbD (k + 2) := by
        simp [show k + 1 < 7 by omega, Nat.add_left_comm]
      have high : (w.extractLsb' 2 6).getLsbD k = w.getLsbD (k + 2) := by
        simp [show k < 6 by omega, Nat.add_comm]
      rw [onesBelow, ih (by omega), low, onesBelow, high, Nat.add_assoc]
  exact loop 6 le_rfl

/-- The transitions of a candidate whose neighbours differ as the word's bits 2 to 7 say, and at its start as `b` says. -/
theorem countTransitions_of_neighbours {c : Candidate} {b : Bool} (start : (c.getLsbD 0 ^^ c.getLsbD 1) = b)
    (upper : ∀ i, i + 2 ≤ 7 → (c.getLsbD (i + 1) ^^ c.getLsbD (i + 2)) = w.getLsbD (i + 2)) :
    countTransitions c = b.toNat + upperOnes w := by
  have loop : ∀ k ≤ 6, transitionsBelow c (k + 1) = b.toNat + onesBelow (w.extractLsb' 2 6) k := by
    intro k
    induction k with
    | zero => simp [transitionsBelow, onesBelow, ← start]
    | succ k ih =>
      intro hk
      have bit : (w.extractLsb' 2 6).getLsbD k = w.getLsbD (k + 2) := by
        simp [show k < 6 by omega, Nat.add_comm]
      rw [transitionsBelow, ih (by omega), upper k (by omega), onesBelow, bit, Nat.add_assoc]
  exact loop 6 le_rfl

/-- R54: the XOR chain has a transition for each one of the tail. -/
theorem countTransitions_xorChain : countTransitions (xorChain w) = tailOnes w := by
  rw [tailOnes_eq]
  exact countTransitions_of_neighbours (xorChain_neighbours w (by decide)) fun i hi => xorChain_neighbours w hi

/-- R59: the XNOR candidate has the XOR chain's transitions but at its start, where bit 0 was left alone. -/
theorem countTransitions_xnorCandidate :
    countTransitions (xnorCandidate w) = (1 - (w.getLsbD 1).toNat) + upperOnes w := by
  have complement : ∀ b : Bool, 1 - b.toNat = (!b).toNat := by decide
  rw [complement]
  refine countTransitions_of_neighbours ?_ fun i hi => ?_
  · have neighbours := xorChain_neighbours w (i := 0) (by decide)
    rw [getLsbD_xnorCandidate_zero, getLsbD_xnorCandidate w (by decide), ← neighbours]
    simp
  · have neighbours := xorChain_neighbours w hi
    rw [getLsbD_xnorCandidate w (Nat.le_of_succ_le hi), getLsbD_xnorCandidate w hi, ← neighbours]
    simp

/-- R59: the direct rule takes the XNOR chain exactly where the word has bit 1. -/
theorem selectDirect_eq_false_iff : selectDirect w = false ↔ w.getLsbD 1 = true := by
  rw [selectDirect, Bool.not_eq_false', decide_eq_true_iff, countTransitions_xorChain, tailOnes_eq,
    countTransitions_xnorCandidate]
  cases w.getLsbD 1 <;> simp

/-- The transitions of the chosen candidate, where it is the XOR chain. -/
theorem countTransitions_chosen_xor (h : selectShortcut w = true) :
    countTransitions (chooseCandidate w).1 = tailOnes w := by
  simp [chooseCandidate_fst, h, countTransitions_xorChain]

/-- The transitions of the chosen candidate, where it is the XNOR candidate. -/
theorem countTransitions_chosen_xnor (h : selectShortcut w = false) :
    countTransitions (chooseCandidate w).1 = (1 - (w.getLsbD 1).toNat) + upperOnes w := by
  simp [chooseCandidate_fst, h, countTransitions_xnorCandidate]

end Transitions

/-- Settles O6: the inverse chain recovers the word bit by bit, and the chain's transitions are the word's tail ones. -/
theorem unchainInvertsTheXorChain : Obligations.UnchainInvertsTheXorChain := by
  refine ⟨fun w n h => ?bits, unchain_xorChain, xorChain_unchain, fun c => getLsbD_unchain c (Nat.zero_le 7), ?recurrence,
    fun w => countTransitions_xorChain⟩
  case bits => rw [getLsbD_xorChain w h, chainBit_eq_foldl]
  case recurrence =>
    intro c n h1 h7
    obtain ⟨i, rfl⟩ := Nat.exists_eq_add_of_le' h1
    exact getLsbD_unchain c h7

/-- Settles O9: the candidates' transitions differ at the start alone, where the word's bit 1 decides. -/
theorem directRuleComparesTransitionCounts : Obligations.DirectRuleComparesTransitionCounts := by
  refine ⟨fun w => ⟨fun h => ?xnor, fun h => ?xor⟩, fun w => ?difference, fun w => countTransitions_xnorCandidate,
    fun w => selectDirect_eq_false_iff, by decide, by decide⟩
  case xnor => simp [selectDirect, h]
  case xor => simp [selectDirect, h]
  case difference =>
    rw [countTransitions_xnorCandidate, countTransitions_xorChain, tailOnes_eq]
    have := Bool.toNat_le (w.getLsbD 1)
    omega

/-- Settles O10: the two rules look at bit 1 and at the tail's ones; the two counts are evaluated. -/
theorem directAndShortcutDisagreeOnEightyEightWords : Obligations.DirectAndShortcutDisagreeOnEightyEightWords := by
  refine ⟨fun w => ?disagree, by decide +kernel, by decide +kernel⟩
  have differ : ∀ d e : Bool, d ≠ e ↔ (d = false ∧ e = true) ∨ (¬ d = false ∧ e = false) := by decide
  rw [differ, selectDirect_eq_false_iff, selectShortcut_eq_true_iff, selectShortcut_eq_false_iff, Bool.not_eq_true,
    Nat.lt_succ_iff]

/-- Settles O12: the transitions of each candidate by the word's bits; the words of most transitions and the count of 88 are
evaluated. -/
theorem transitionsOfTheChosenCandidate : Obligations.TransitionsOfTheChosenCandidate := by
  refine ⟨fun w h => ?xor, fun w h => ?xnor, by decide +kernel, by decide, by decide, fun w => ?above, by decide +kernel⟩
  case xor =>
    have := selectShortcut_eq_true_iff.mp h
    exact ⟨countTransitions_chosen_xor h, by omega⟩
  case xnor =>
    have few := selectShortcut_eq_false_iff.mp h
    have := upperOnes_le (w := w)
    have := Bool.toNat_le (w.getLsbD 1)
    rw [tailOnes_eq] at few
    rw [countTransitions_chosen_xnor h]
    exact ⟨rfl, by omega, by omega⟩
  case above =>
    cases h : selectShortcut w with
    | true =>
      have := selectShortcut_eq_true_iff.mp h
      rw [countTransitions_chosen_xor h]
      exact ⟨fun _ => by omega, fun ⟨hsel, _⟩ => absurd hsel nofun⟩
    | false =>
      have few := selectShortcut_eq_false_iff.mp h
      rw [countTransitions_chosen_xnor h]
      rw [tailOnes_eq] at few ⊢
      revert few
      cases w.getLsbD 1 <;> simp <;> omega

section SignOfTheBias

variable (q : Candidate) (sel : Bool) (w : Word) (b : Int)

/-- The two branches look at the sign of the bias alone (R70). -/
theorem invertFlag_sign (cb : Int) : invertFlag sel cb b.sign = invertFlag sel cb b := by
  simp only [invertFlag, Int.sign_eq_zero_iff_zero, Int.sign_neg_iff, Int.sign_pos_iff]

theorem balance_fst_sign : (balance q sel b.sign).1 = (balance q sel b).1 := by
  rw [balance, balance, invertFlag_sign]

theorem balance_sign :
    balance q sel b = ((balance q sel b.sign).1, b + ((balance q sel b.sign).2 - b.sign)) := by
  rw [balance_snd, add_sub_cancel_left, balance_fst_sign]
  rfl

/-- R78: the symbol and the change of the bias are those of the word at the bias's sign. -/
theorem encodeStep_sign :
    encodeStep w b = ((encodeStep w b.sign).1, b + ((encodeStep w b.sign).2 - b.sign)) :=
  balance_sign _ _ b

theorem encodeStep_fst_sign : (encodeStep w b.sign).1 = (encodeStep w b).1 :=
  balance_fst_sign _ _ b

end SignOfTheBias

/-- Settles O17: the invert flag looks at the sign of the bias alone. -/
theorem symbolAndChangeDependOnTheSignOfTheBias : Obligations.SymbolAndChangeDependOnTheSignOfTheBias :=
  ⟨balance_sign, encodeStep_sign⟩

section DecodedSymbols

variable {w : Word} {s : Symbol} {inv : Bool} {b : Int}

theorem decodeSymbol_eq_unchain : decodeSymbol s = unchain (decodedChain s) := by
  rw [decodeSymbol_eq, unchain_eq_byteOfBits]

/-- The candidate of a word that goes with a selector bit (R61). -/
def candidateOf (w : Word) (sel : Bool) : Candidate := if sel then xorChain w else xnorCandidate w

theorem candidateOf_selectShortcut : candidateOf w (selectShortcut w) = (chooseCandidate w).1 := by
  rw [chooseCandidate_fst, chooseCandidate_snd, candidateOf]

/-- Taking the mask off a candidate is putting it on. -/
theorem xor_xnorMask_eq_iff {c d : Candidate} : c ^^^ xnorMask = d ↔ c = d ^^^ xnorMask := by
  constructor <;> rintro rfl <;> simp

theorem invertIf_eq_iff {c d : BitVec 8} : invertIf inv c = d ↔ c = invertIf inv d := by
  constructor <;> rintro rfl <;> simp

/-- R82 solved for the data bits: a symbol decodes to a word when its data bits are the word's candidate under its selector
bit, inverted under its invert flag. -/
theorem decodeSymbol_eq_iff :
    decodeSymbol s = w ↔ symbolData s = invertIf (symbolInvert s) (candidateOf w (symbolSelector s)) := by
  rw [decodeSymbol_eq_unchain, unchain_eq_iff, decodedChain, ← invertIf_eq_iff]
  cases symbolSelector s with
  | true => rfl
  | false => exact xor_xnorMask_eq_iff

/-- The word's two symbols by R57 and R66, one for each invert flag, as R41 counts them (log 20). -/
def assembledSymbol (w : Word) (inv : Bool) : Symbol :=
  makeSymbol inv (selectShortcut w) (invertIf inv (chooseCandidate w).1)

@[simp] theorem symbolInvert_assembledSymbol : symbolInvert (assembledSymbol w inv) = inv :=
  symbolInvert_makeSymbol _ _ _

@[simp] theorem symbolSelector_assembledSymbol : symbolSelector (assembledSymbol w inv) = selectShortcut w :=
  symbolSelector_makeSymbol _ _ _

@[simp] theorem decodeSymbol_assembledSymbol : decodeSymbol (assembledSymbol w inv) = w := by
  rw [decodeSymbol_eq_iff, symbolInvert_assembledSymbol, symbolSelector_assembledSymbol, candidateOf_selectShortcut]
  exact symbolData_makeSymbol _ _ _

/-- ENC emits one of the word's two symbols, by the invert flag (R66). -/
theorem encodeStep_fst :
    (encodeStep w b).1 = assembledSymbol w (invertFlag (selectShortcut w) (bitBias (chooseCandidate w).1) b) := by
  rw [encodeStep, balance, chooseCandidate_snd, assembledSymbol]

/-- R84, for one word. -/
@[simp] theorem decodeSymbol_encodeStep : decodeSymbol (encodeStep w b).1 = w := by
  rw [encodeStep_fst, decodeSymbol_assembledSymbol]

theorem map_decodeSymbol_symbolsFrom (ws : List Word) (b : Int) : (symbolsFrom b ws).map decodeSymbol = ws := by
  induction ws generalizing b with
  | nil => rfl
  | cons w ws ih => rw [symbolsFrom, List.map_cons, decodeSymbol_encodeStep, ih]

/-- A symbol whose selector bit is the rule's verdict is one of the two symbols of the word it decodes to. -/
theorem eq_assembledSymbol (h : symbolSelector s = selectShortcut (decodeSymbol s)) :
    s = assembledSymbol (decodeSymbol s) (symbolInvert s) := by
  have data := decodeSymbol_eq_iff.mp (rfl : decodeSymbol s = decodeSymbol s)
  rw [h, candidateOf_selectShortcut] at data
  rw [assembledSymbol, ← data, ← h, makeSymbol_fields]

/-- Where the candidate's bias is not 0, some bias gives each invert flag: its own or the opposite (R65). -/
theorem exists_invertFlag_eq {sel : Bool} {cb : Int} (hcb : cb ≠ 0) (inv : Bool) : ∃ b, invertFlag sel cb b = inv := by
  cases inv with
  | true => exact ⟨-cb, (invertFlag_eq_true_iff (neg_ne_zero.mpr hcb) hcb).mpr (by omega)⟩
  | false =>
    refine ⟨cb, Bool.eq_false_iff.mpr fun h => ?_⟩
    have := (invertFlag_eq_true_iff hcb hcb).mp h
    omega

theorem exists_encodeStep_eq (h : bitBias (chooseCandidate w).1 ≠ 0) (inv : Bool) :
    ∃ b, (encodeStep w b).1 = assembledSymbol w inv := by
  obtain ⟨b, hb⟩ := exists_invertFlag_eq (sel := selectShortcut w) h inv
  exact ⟨b, by rw [encodeStep_fst, hb]⟩

/-- A word whose candidate has bias 0 has one symbol at every bias: it is always in the tie branch (R64). -/
theorem encodeStep_fst_of_tie (h : bitBias (chooseCandidate w).1 = 0) :
    (encodeStep w b).1 = assembledSymbol w (!selectShortcut w) := by
  rw [encodeStep_fst, invertFlag_of_tie (.inr h)]

/-- The symbols of ENC's image: one of its word's two, and in a tie the one R64 gives (log 20). -/
abbrev Emittable (s : Symbol) : Prop :=
  symbolSelector s = selectShortcut (decodeSymbol s)
    ∧ (bitBias (chooseCandidate (decodeSymbol s)).1 = 0 → symbolInvert s = !symbolSelector s)

theorem emittable_encodeStep : Emittable (encodeStep w b).1 := by
  rw [Emittable, decodeSymbol_encodeStep, symbolSelector_encodeStep, chooseCandidate_snd]
  exact ⟨rfl, fun h => by rw [encodeStep_fst_of_tie h, symbolInvert_assembledSymbol]⟩

/-- A symbol of the image is emitted for the word it decodes to. -/
theorem exists_encodeStep_of_emittable (h : Emittable s) : ∃ b, (encodeStep (decodeSymbol s) b).1 = s := by
  obtain ⟨hsel, htie⟩ := h
  have hs := eq_assembledSymbol hsel
  by_cases hcb : bitBias (chooseCandidate (decodeSymbol s)).1 = 0
  · exact ⟨0, by rw [encodeStep_fst_of_tie hcb, ← hsel, ← htie hcb, ← hs]⟩
  · obtain ⟨b, hb⟩ := exists_encodeStep_eq hcb (symbolInvert s)
    exact ⟨b, hb.trans hs.symm⟩

/-- The three signs stand for all biases: a symbol of the image is emitted at one of them (R70). -/
theorem any_sign_emits_eq (s : Symbol) :
    ([(-1 : Int), 0, 1].any fun b => (encodeStep (decodeSymbol s) b).1 == s) = decide (Emittable s) := by
  rw [Bool.eq_iff_iff, decide_eq_true_iff, List.any_eq_true]
  constructor
  · rintro ⟨b, -, hb⟩
    rw [← beq_iff_eq.mp hb]
    exact emittable_encodeStep
  · intro h
    obtain ⟨b, hb⟩ := exists_encodeStep_of_emittable h
    refine ⟨b.sign, ?_, by rw [encodeStep_fst_sign, hb, beq_self_eq_true]⟩
    obtain hb | hb | hb := Int.sign_trichotomy b <;> simp [hb]

end DecodedSymbols

/-- Settles O27: an emitted symbol is assembled from the word's chosen candidate, which its control bits lead back to. -/
theorem decodingUndoesEncodingAtEveryBias : Obligations.DecodingUndoesEncodingAtEveryBias := by
  refine ⟨fun w b => decodeSymbol_encodeStep, map_decodeSymbol_symbolsFrom, fun s ch w c hc hf hs hb => ?machine⟩
  refine ⟨_, _, _, _, exec_enc_fits hc hf hs hb, setChannel_channel?_self s ch c _ hc, rfl, exec_dec _, ?_⟩
  rw [emitWord_dout, decodeSymbol_encodeStep, setChannel_dout]

/-- Settles O26: the decoder unchains, which goes through exclusive-or, and the two masks unchain to one bit each. -/
theorem decClosedForms : Obligations.DecClosedForms := by
  intro s
  have inverted : unchain 0xFF#8 = 0x01#8 := by decide
  have masked : unchain 0xFE#8 = 0x02#8 := by decide
  have chain : decodedChain s = s.extractLsb' 0 8 ^^^ (if s.getLsbD 9 then 0xFF#8 else 0x00#8)
      ^^^ (if s.getLsbD 8 then 0x00#8 else 0xFE#8) := by
    rw [decodedChain, generatedCandidate, symbolInvert, symbolSelector, symbolData]
    cases s.getLsbD 9 <;> cases s.getLsbD 8 <;> simp [invertIf, xnorMask]
  have first := decodeSymbol_eq_unchain.trans (congrArg unchain chain)
  refine ⟨first, ?_⟩
  rw [first, unchain_xor, unchain_xor, apply_ite unchain, apply_ite unchain, inverted, masked]
  rfl

/-- Settles O28: the control bits and the word fix the data bits. -/
theorem fourSymbolsDecodeToEachWord : Obligations.FourSymbolsDecodeToEachWord := by
  refine ⟨fun w inv sel => ⟨invertIf inv (candidateOf w sel), ?decodes, fun d' h => ?unique⟩, fun s => ?zero,
    fun w b => ?selector⟩
  case decodes => simp [decodeSymbol_eq_iff]
  case unique => simpa [decodeSymbol_eq_iff] using h
  case zero =>
    constructor
    · intro h
      have data := decodeSymbol_eq_iff.mp h
      rw [← makeSymbol_fields s, data]
      cases symbolInvert s <;> cases symbolSelector s <;> decide
    · rintro (rfl | rfl | rfl | rfl) <;> decide
  case selector => rw [symbolSelector_encodeStep, chooseCandidate_snd]

/-- Settles O29: a symbol with the rule's selector bit is one of its word's two, and ENC emits both unless the candidate's
bias is 0; the count is evaluated. -/
theorem symbolsThatEncCanEmit : Obligations.SymbolsThatEncCanEmit := by
  refine ⟨fun s => ⟨?image, fun h => ?emitted⟩, ?count⟩
  case image =>
    rintro ⟨w, b, rfl⟩
    exact emittable_encodeStep
  case emitted =>
    obtain ⟨b, hb⟩ := exists_encodeStep_of_emittable h
    exact ⟨_, b, hb⟩
  case count =>
    simp only [any_sign_emits_eq]
    simp only [Emittable, decodeSymbol_eq_unchain]
    decide +kernel

/-- Settles O30: ENC's invert flag picks one of the word's two symbols, freely but in a tie; the two counts are evaluated. -/
theorem emittedSymbolsAreAmongTheAssembledOnes : Obligations.EmittedSymbolsAreAmongTheAssembledOnes := by
  refine ⟨fun w b => ?emitted, fun w inv => ⟨decodeSymbol_assembledSymbol, symbolInvert_assembledSymbol⟩,
    fun s => ⟨?verdict, fun h => ⟨_, _, (eq_assembledSymbol h).symm⟩⟩, ?assembled,
    fun w h => exists_encodeStep_eq h, fun w h b => encodeStep_fst_of_tie h, by decide +kernel⟩
  case emitted =>
    change _ = assembledSymbol w _
    rw [encodeStep_fst, symbolInvert_assembledSymbol]
  case verdict =>
    rintro ⟨w, inv, rfl⟩
    change symbolSelector (assembledSymbol w inv) = selectShortcut (decodeSymbol (assembledSymbol w inv))
    rw [symbolSelector_assembledSymbol, decodeSymbol_assembledSymbol]
  case assembled =>
    simp only [decodeSymbol_eq_unchain]
    decide +kernel

/-- Refutes O31: the candidate of 0x10 has bias 0 and its selector bit is 1, so its invert flag is 0 at every bias (R64). -/
theorem not_encEmitsBothInvertFlagsForEveryWord : ¬ Obligations.EncEmitsBothInvertFlagsForEveryWord := by
  intro h
  obtain ⟨b, hb⟩ := h 0x10#8 true
  have tie : bitBias (chooseCandidate 0x10#8).1 = 0 := by decide
  have selected : selectShortcut 0x10#8 = true := by decide
  rw [encodeStep_fst_of_tie tie, symbolInvert_assembledSymbol, selected] at hb
  exact absurd hb (by decide)

end Sys2Proof.Machine
end

section
/-! Proofs of the family other, the running bias: the change a word makes in each branch, its sign and its size, and the bias
after a stream of words. -/

namespace Sys2Proof.Machine

open Sys2Proof

section BiasChange

variable (q : Candidate) (sel : Bool) (b : Int)

/-- A control bit counts for 1 or -1 (R51). -/
theorem bitBias_ofBool : bitBias (BitVec.ofBool sel) = 2 * (sel.toNat : Int) - 1 := by
  revert sel
  decide

theorem bitBias_invertIf (inv : Bool) : bitBias (invertIf inv q) = if inv then -bitBias q else bitBias q := by
  cases inv with
  | true => rw [invertIf_true, bitBias_not, if_pos rfl]
  | false => rfl

/-- The change of the running bias is the bias of the symbol (R67). -/
theorem balance_change : (balance q sel b).2 - b = bitBias (balance q sel b).1 := by
  rw [balance_snd, add_sub_cancel_left]

/-- R69: the symbol's bias by its three fields. -/
theorem bitBias_balance : bitBias (balance q sel b).1
    = (if invertFlag sel (bitBias q) b then -bitBias q else bitBias q) + (2 * (sel.toNat : Int) - 1)
      + (2 * ((invertFlag sel (bitBias q) b).toNat : Int) - 1) := by
  rw [balance, bitBias_makeSymbol, bitBias_invertIf, bitBias_ofBool, bitBias_ofBool]
  ring

variable {q b}

/-- R69, the tie branch: the two control bits differ. -/
theorem balance_change_of_tie (h : b = 0 ∨ bitBias q = 0) :
    (balance q sel b).2 - b = if sel then bitBias q else -bitBias q := by
  rw [balance_change, bitBias_balance, invertFlag_of_tie h]
  cases sel <;> simp

/-- R69, the sign branch with like signs: the data bits are not inverted. -/
theorem balance_change_of_same_sign (h : (b < 0 ∧ bitBias q < 0) ∨ (0 < b ∧ 0 < bitBias q)) :
    invertFlag sel (bitBias q) b = false ∧ (balance q sel b).2 - b = bitBias q + 2 * (sel.toNat : Int) - 2 := by
  have flag : invertFlag sel (bitBias q) b = false := by
    rw [← Bool.not_eq_true, invertFlag_eq_true_iff (by omega) (by omega)]
    omega
  refine ⟨flag, ?_⟩
  rw [balance_change, bitBias_balance, flag, if_neg Bool.false_ne_true, Bool.toNat_false]
  ring

/-- R69, the sign branch with opposite signs: the data bits are inverted. -/
theorem balance_change_of_opposite_sign (h : (b < 0 ∧ 0 < bitBias q) ∨ (0 < b ∧ bitBias q < 0)) :
    invertFlag sel (bitBias q) b = true ∧ (balance q sel b).2 - b = -bitBias q + 2 * (sel.toNat : Int) := by
  have flag : invertFlag sel (bitBias q) b = true := (invertFlag_eq_true_iff (by omega) (by omega)).mpr h
  refine ⟨flag, ?_⟩
  rw [balance_change, bitBias_balance, flag, if_pos rfl, Bool.toNat_true]
  ring

/-- R72: a change is even, for a symbol has ten bits. -/
theorem balance_change_even : ((balance q sel b).2 - b) % 2 = 0 := by
  rw [balance_change]
  exact bitBias_emod_two _

theorem balance_change_of_zero : -8 ≤ (balance q sel 0).2 ∧ (balance q sel 0).2 ≤ 8 := by
  have change := balance_change_of_tie (q := q) sel (.inl (rfl : (0 : Int) = 0))
  have := bitBias_candidate q
  cases sel <;> simp at change <;> omega

/-- R71: a positive bias does not fall, for a positive candidate is even, so 2 at least, and a negative one is inverted. -/
theorem balance_change_of_pos (hb : 0 < b) : 0 ≤ (balance q sel b).2 - b ∧ (balance q sel b).2 - b ≤ 10 := by
  have := bitBias_candidate q
  have := Bool.toNat_le sel
  obtain hcb | hcb | hcb := lt_trichotomy (bitBias q) 0
  · obtain ⟨-, change⟩ := balance_change_of_opposite_sign sel (.inr ⟨hb, hcb⟩)
    omega
  · have := balance_snd_of_bitBias_eq_zero sel b hcb
    omega
  · obtain ⟨-, change⟩ := balance_change_of_same_sign sel (.inr ⟨hb, hcb⟩)
    omega

/-- R71: a negative bias does not rise. -/
theorem balance_change_of_neg (hb : b < 0) : -10 ≤ (balance q sel b).2 - b ∧ (balance q sel b).2 - b ≤ 0 := by
  have := bitBias_candidate q
  have := Bool.toNat_le sel
  obtain hcb | hcb | hcb := lt_trichotomy (bitBias q) 0
  · obtain ⟨-, change⟩ := balance_change_of_same_sign sel (.inl ⟨hb, hcb⟩)
    omega
  · have := balance_snd_of_bitBias_eq_zero sel b hcb
    omega
  · obtain ⟨-, change⟩ := balance_change_of_opposite_sign sel (.inl ⟨hb, hcb⟩)
    omega

/-- R72: no word changes the bias by more than 10. -/
theorem balance_change_bounds : -10 ≤ (balance q sel b).2 - b ∧ (balance q sel b).2 - b ≤ 10 := by
  obtain hb | rfl | hb := lt_trichotomy b 0
  · have := balance_change_of_neg (q := q) sel hb
    omega
  · have := balance_change_of_zero (q := q) sel
    omega
  · have := balance_change_of_pos (q := q) sel hb
    omega

end BiasChange

section WordChange

variable {w : Word} {b : Int}

/-- R78: a word changes the bias as at the bias's sign. -/
theorem encodeStep_change_sign : (encodeStep w b).2 - b = (encodeStep w b.sign).2 - b.sign := by
  rw [encodeStep_sign, add_sub_cancel_left]

theorem le_encodeStep_of_pos (hb : 0 < b) : b ≤ (encodeStep w b).2 :=
  sub_nonneg.mp (balance_change_of_pos _ hb).1

theorem encodeStep_le_of_neg (hb : b < 0) : (encodeStep w b).2 ≤ b :=
  sub_nonpos.mp (balance_change_of_neg _ hb).2

/-- A negative bias falls by at most 8: no word has a candidate of eight zeros with selector bit 0. -/
theorem encodeStep_change_of_neg (hb : b < 0) : -8 ≤ (encodeStep w b).2 - b := by
  have words : ∀ w : Word, -8 ≤ (encodeStep w (-1)).2 - -1 := by decide +kernel
  rw [encodeStep_change_sign, Int.sign_eq_neg_one_of_neg hb]
  exact words w

/-- Every change of R72's lists is made by a word, at bias 0 and at each sign. -/
theorem exists_change_of_zero : ∀ k : Fin 9, ∃ w : Word, (encodeStep w 0).2 = 2 * (k : Int) - 8 := by decide +kernel

theorem exists_change_of_pos : ∀ k : Fin 6, ∃ w : Word, (encodeStep w 1).2 - 1 = 2 * (k : Int) := by decide +kernel

theorem exists_change_of_neg : ∀ k : Fin 5, ∃ w : Word, (encodeStep w (-1)).2 - -1 = 2 * (k : Int) - 8 := by
  decide +kernel

/-- The word 0x00 moves a bias away from 0: down by 8 from 0 and below, up by 10 above (R71). -/
theorem encodeStep_zero_word_of_nonpos (hb : b ≤ 0) : encodeStep 0x00#8 b = (0x100#10, b - 8) := by
  obtain rfl | hb := hb.eq_or_lt
  · decide
  · have below : encodeStep 0x00#8 (-1) = (0x100#10, -9) := by decide
    rw [encodeStep_sign, Int.sign_eq_neg_one_of_neg hb, below]
    rfl

theorem encodeStep_zero_word_of_pos (hb : 0 < b) : encodeStep 0x00#8 b = (0x3FF#10, b + 10) := by
  have above : encodeStep 0x00#8 1 = (0x3FF#10, 11) := by decide
  rw [encodeStep_sign, Int.sign_eq_one_of_pos hb, above]
  rfl

end WordChange

section Streams

variable {b : Int}

theorem zero_words_of_nonpos (n : Nat) (hb : b ≤ 0) : biasAfter b (List.replicate n 0x00#8) = b - 8 * (n : Int)
    ∧ symbolsFrom b (List.replicate n 0x00#8) = List.replicate n 0x100#10 := by
  induction n generalizing b with
  | zero => simp [biasAfter, symbolsFrom]
  | succ n ih =>
    obtain ⟨bias, symbols⟩ := ih (b := b - 8) (by omega)
    rw [List.replicate_succ, biasAfter, symbolsFrom, encodeStep_zero_word_of_nonpos hb, bias, symbols]
    exact ⟨by push_cast; ring, rfl⟩

theorem zero_words_of_pos (n : Nat) (hb : 0 < b) : biasAfter b (List.replicate n 0x00#8) = b + 10 * (n : Int) := by
  induction n generalizing b with
  | zero => simp [biasAfter]
  | succ n ih =>
    rw [List.replicate_succ, biasAfter, encodeStep_zero_word_of_pos hb, ih (by omega)]
    push_cast
    ring

/-- R72: `n` words move the bias by at most `10·n`. -/
theorem natAbs_biasAfter_le (ws : List Word) (b : Int) : (biasAfter b ws).natAbs ≤ b.natAbs + 10 * ws.length := by
  induction ws generalizing b with
  | nil => simp [biasAfter]
  | cons w ws ih =>
    have change : -10 ≤ (encodeStep w b).2 - b ∧ (encodeStep w b).2 - b ≤ 10 := balance_change_bounds _
    have := ih (encodeStep w b).2
    rw [biasAfter, List.length_cons]
    omega

/-- R72: the bias stays even. -/
theorem biasAfter_even (ws : List Word) (b : Int) (hb : b % 2 = 0) : biasAfter b ws % 2 = 0 := by
  induction ws generalizing b with
  | nil => exact hb
  | cons w ws ih => exact ih _ (encodeStep_even hb)

end Streams

/-- Settles O4: the parity, the complement and the concatenation of a bias by its bits. -/
theorem bitBiasParityNegationAndConcatenation : Obligations.BitBiasParityNegationAndConcatenation :=
  ⟨fun _ => bitBias_emod_two, fun _ => bitBias_not, fun _ _ => bitBias_append⟩

/-- Settles O16: the symbol's bias is that of its three fields, and each branch gives its invert flag. -/
theorem biasChangeInEachBranch : Obligations.BiasChangeInEachBranch := by
  intro q sel b
  exact ⟨bitBias_balance q sel b, balance_change_of_tie sel, balance_change_of_same_sign sel,
    balance_change_of_opposite_sign sel⟩

/-- Settles O18: a change has the sign of the bias, and the word 0x00 always makes one. -/
theorem biasNeverReturnsTowardZero : Obligations.BiasNeverReturnsTowardZero := by
  refine ⟨fun q sel b hb => sub_nonneg.mp (balance_change_of_pos sel hb).1,
    fun q sel b hb => sub_nonpos.mp (balance_change_of_neg sel hb).2, fun n => ?fromZero, fun b bound => ?unbounded⟩
  case fromZero =>
    obtain ⟨bias, symbols⟩ := zero_words_of_nonpos n le_rfl
    exact ⟨by rw [bias]; ring, symbols⟩
  case unbounded =>
    refine ⟨List.replicate (bound + 1) 0x00#8, ?_⟩
    obtain hb | hb := le_or_gt b 0
    · obtain ⟨bias, -⟩ := zero_words_of_nonpos (bound + 1) hb
      rw [bias]
      omega
    · rw [zero_words_of_pos (bound + 1) hb]
      omega

/-- Settles O19: the changes by the branch, the words that make each listed one, and the sum over a stream. -/
theorem biasChangesAreEvenAndBounded : Obligations.BiasChangesAreEvenAndBounded := by
  refine ⟨fun q sel b => ⟨balance_change_even sel, balance_change_bounds sel⟩, fun d => ⟨?zeroOnly, fun hd => ?zeroAll⟩,
    fun b d hb => ⟨?posOnly, fun hd => ?posAll⟩, fun b d hb => ⟨?negOnly, fun hd => ?negAll⟩, fun ws => ⟨?size, ?even⟩⟩
  case zeroOnly =>
    rintro ⟨w, rfl⟩
    exact ⟨encodeStep_even rfl, balance_change_of_zero _⟩
  case zeroAll =>
    obtain ⟨w, hw⟩ := exists_change_of_zero ⟨((d + 8) / 2).toNat, by omega⟩
    exact ⟨w, hw.trans (by push_cast; omega)⟩
  case posOnly =>
    rintro ⟨w, rfl⟩
    exact ⟨balance_change_even _, balance_change_of_pos _ hb⟩
  case posAll =>
    obtain ⟨w, hw⟩ := exists_change_of_pos ⟨(d / 2).toNat, by omega⟩
    refine ⟨w, ?_⟩
    rw [encodeStep_change_sign, Int.sign_eq_one_of_pos hb, hw]
    push_cast
    omega
  case negOnly =>
    rintro ⟨w, rfl⟩
    exact ⟨balance_change_even _, encodeStep_change_of_neg hb, (balance_change_of_neg _ hb).2⟩
  case negAll =>
    obtain ⟨w, hw⟩ := exists_change_of_neg ⟨((d + 8) / 2).toNat, by omega⟩
    refine ⟨w, ?_⟩
    rw [encodeStep_change_sign, Int.sign_eq_neg_one_of_neg hb, hw]
    push_cast
    omega
  case size => exact (natAbs_biasAfter_le ws 0).trans (by simp)
  case even => exact biasAfter_even ws 0 rfl

/-- Settles O20: in a tie the invert flag is the selector's complement, so the control bits add nothing. -/
theorem tiePairIsAFunctionOfTheWord : Obligations.TiePairIsAFunctionOfTheWord := by
  refine ⟨fun w b h => ?tie, by decide, by decide⟩
  have hsel : symbolSelector (encodeStep w b).1 = selectShortcut w := by
    rw [symbolSelector_encodeStep, chooseCandidate_snd]
  have hinv : symbolInvert (encodeStep w b).1 = !selectShortcut w := by
    rw [encodeStep_fst, symbolInvert_assembledSymbol, invertFlag_of_tie h]
  refine ⟨hsel, hinv, ?_⟩
  have fields := bitBias_makeSymbol (symbolInvert (encodeStep w b).1) (symbolSelector (encodeStep w b).1)
    (symbolData (encodeStep w b).1)
  rw [makeSymbol_fields, hinv, hsel, bitBias_tie_control, zero_add] at fields
  rw [encodeStep_bias, add_sub_cancel_left, fields]

/-- Settles O36: a step that changes a bias is an ENC, which moves it away from 0, or an RST to that channel. -/
theorem onlyRstBringsTheBiasBack : Obligations.OnlyRstBringsTheBiasBack := by
  intro s t ch c d h hc hd
  by_cases hrb : d.rb = c.rb
  · rw [hrb]
    exact ⟨fun _ => .inl le_rfl, fun _ => .inl le_rfl, fun _ _ => ⟨fun _ => le_rfl, fun _ => le_rfl⟩⟩
  obtain ⟨op, hop, ⟨w, -, hw, -⟩ | ⟨rfl, h0⟩⟩ := step_changes_bias hc hd hrb h
  · rw [← encodeStep_bias] at hw
    rw [hw]
    exact ⟨fun hpos => .inl (le_encodeStep_of_pos hpos), fun hneg => .inl (encodeStep_le_of_neg hneg),
      fun _ _ => ⟨le_encodeStep_of_pos, encodeStep_le_of_neg⟩⟩
  · refine ⟨fun _ => .inr h0, fun _ => .inr h0, fun notIssued notHeld => ?_⟩
    obtain ⟨q, rest, ht, hq⟩ | ⟨hslot, -⟩ := hop
    · exact absurd hq (notIssued q rest ht)
    · exact absurd hslot notHeld

end Sys2Proof.Machine
end

section
/-! Proofs of the family other, requests and runs: what a channel makes of a request and of a stream of requests. -/

namespace Sys2Proof.Machine

open Sys2Proof

section EncodedRequests

/-- R43: the decoder undoes the encoder. -/
@[simp] theorem decode_encode (i : Instr) : decode (encode i) = .ok i := by
  cases i with
  | enc ch w => exact decode_enc_word ch w
  | dec x => exact decode_dec_word x 0
  | rst ch => exact decode_of_rstRow (q := encode (.rst ch)) (Laws.TableRow.rst ch).1

/-- The number beside a request that decodes to an ENC or an RST is the operation's (R42). -/
theorem channel_of_decode {q : Request} {i : Instr} (hi : ∀ x, i ≠ .dec x) (h : decode q = .ok i) : i.channel = q.ch := by
  unfold decode at h
  split at h
  · cases h
    rfl
  split at h
  · cases h
    exact absurd rfl (hi _)
  split at h
  · cases h
    rfl
  · cases h

theorem encode_of_decode {q : Request} {i : Instr} (hi : ∀ x, i ≠ .dec x) (h : decode q = .ok i) : encode i = q := by
  rw [encode, channel_of_decode hi h, encodeWord_of_decode h]

end EncodedRequests

/-- Settles O57: the operands stand in the word unchanged, and the number beside it. -/
theorem decodingUndoesRequestEncoding : Obligations.DecodingUndoesRequestEncoding :=
  ⟨decode_encode, fun _ _ h => ⟨encodeWord_of_decode h, fun hi => encode_of_decode hi h⟩⟩

/-- What the channel of number `ch` makes of a request that reaches it: faulted it passes it over (R92), with its slot
occupied it faults (R91), and otherwise it performs it. -/
def Channel.receive (width : Option Nat) (ch : Nat) (op : SlotRequest) (c : Channel) : Channel :=
  match c.fault, c.slot with
  | some _, _ => c
  | none, some held => c.raiseFault (.concurrentAccess held.requestWord op.requestWord ch)
  | none, none => slotEffect width ch op c

section Received

variable {width : Option Nat} {s t : State} {ch : Nat} {c : Channel} {op : SlotRequest}

theorem receive_faulted {f : Fault} (hf : c.fault = some f) : c.receive width ch op = c := by
  simp [Channel.receive, hf]

theorem receive_occupied {held : SlotRequest} (hf : c.fault = none) (hs : c.slot = some held) :
    c.receive width ch op = c.raiseFault (.concurrentAccess held.requestWord op.requestWord ch) := by
  simp [Channel.receive, hf, hs]

theorem receive_free (hf : c.fault = none) (hs : c.slot = none) : c.receive width ch op = slotEffect width ch op c := by
  simp [Channel.receive, hf, hs]

/-- An operation addressed to a channel replaces that channel by what it makes of the request, and nothing else. -/
theorem exec_receive (hc : s.channel? ch = some c) :
    exec (op.instr ch) s = .next (s.setChannel ch (c.receive s.biasWidth ch op)) := by
  cases hf : c.fault with
  | some f => rw [exec_faulted hc hf, receive_faulted hf, setChannel_eq_self s ch c hc]
  | none =>
    cases hs : c.slot with
    | some held => rw [exec_occupied hc hf hs, receive_occupied hf hs]
    | none => rw [exec_free hc hf hs, receive_free hf hs]

/-- An operation addressed to a missing channel is refused (log 8). -/
theorem exec_missing (h : s.channel? ch = none) : exec (op.instr ch) s = .refused (.noSuchChannel ch) := by
  rw [exec_slotRequest, onChannel_missing h]

/-- An operation that is performed was addressed to a channel, which it replaces. -/
theorem exec_next (h : exec (op.instr ch) s = .next t) :
    ∃ c, s.channel? ch = some c ∧ t = s.setChannel ch (c.receive s.biasWidth ch op) := by
  cases hc : s.channel? ch with
  | none => simp [exec_missing hc] at h
  | some c =>
    rw [exec_receive hc] at h
    cases h
    exact ⟨c, rfl, rfl⟩

/-- The frame of an operation addressed to a channel: it writes that channel alone (R17, R21). -/
theorem exec_frame (h : exec (op.instr ch) s = .next t) :
    t.biasWidth = s.biasWidth ∧ t.dout = s.dout ∧ t.refusalMark = s.refusalMark ∧ t.turns = s.turns
      ∧ t.channels.length = s.channels.length ∧ (∀ k, k ≠ ch → t.channel? k = s.channel? k)
      ∧ ∀ c d, s.channel? ch = some c → t.channel? ch = some d → d = c.receive s.biasWidth ch op := by
  obtain ⟨b, hb, rfl⟩ := exec_next h
  refine ⟨rfl, rfl, rfl, rfl, setChannel_length .., fun k hk => setChannel_channel?_other s ch k _ hk, fun c d hc hd => ?_⟩
  rw [setChannel_channel?_self s ch b _ hb] at hd
  rw [← Option.some.inj hd, Option.some.inj (hb.symm.trans hc)]

/-- An operation but DEC is a slot's request to the channel it names. -/
theorem exists_slotRequest {i : Instr} (hi : ∀ x, i ≠ .dec x) : ∃ op : SlotRequest, i = op.instr i.channel := by
  cases i with
  | enc ch w => exact ⟨.enc w, rfl⟩
  | rst ch => exact ⟨.rst, rfl⟩
  | dec x => exact absurd rfl (hi x)

/-- A request leaves the slot as it is. -/
theorem receive_slot : (c.receive width ch op).slot = c.slot := by
  unfold Channel.receive
  split
  · rfl
  · rfl
  · exact slotEffect_slot width op

/-- ENC writes the mark alone, or the new bias and its symbol (R75, R76). -/
theorem receive_enc (w : Word) : (∃ f, c.receive width ch (.enc w) = { c with fault := f })
    ∨ c.receive width ch (.enc w)
        = { c with rb := (encodeStep w c.rb).2, out := c.out ++ [(encodeStep w c.rb).1] } := by
  unfold Channel.receive
  split
  · exact .inl ⟨c.fault, rfl⟩
  · exact .inl ⟨_, rfl⟩
  · cases hb : biasFits width (encodeStep w c.rb).2 with
    | true => exact .inr (encodeNext_fits hb)
    | false => exact .inl ⟨_, encodeNext_overflows hb⟩

/-- RST writes the mark alone, or the bias 0 (R79). -/
theorem receive_rst :
    (∃ f, c.receive width ch .rst = { c with fault := f }) ∨ c.receive width ch .rst = { c with rb := 0 } := by
  unfold Channel.receive
  split
  · exact .inl ⟨c.fault, rfl⟩
  · exact .inl ⟨_, rfl⟩
  · exact .inr rfl

end Received

/-- What a channel makes of a stream of requests, one after the other. -/
def Channel.receiveAll (width : Option Nat) (ch : Nat) (ops : List SlotRequest) (c : Channel) : Channel :=
  ops.foldl (fun c op => c.receive width ch op) c

section IssuedStreams

variable {width : Option Nat} {s : State} {ch : Nat} {c : Channel} {rest : List Turn}

/-- The step of an issued ENC or RST. -/
theorem step_issue_encode {op : SlotRequest} (ht : s.turns = .issue (encode (op.instr ch)) :: rest)
    (hc : s.channel? ch = some c) :
    step s = .next ((s.setChannel ch (c.receive s.biasWidth ch op)).withTurns rest) := by
  rw [step_issue ht (decode_encode _), exec_receive (s := s.withTurns rest) hc]
  rfl

/-- A run over a stream of requests to one channel replaces that channel alone, by what it makes of the stream. -/
theorem runSteps_issueAll {ops : List SlotRequest} (ht : s.turns = issueAll ch ops ++ rest)
    (hc : s.channel? ch = some c) :
    runSteps ops.length s = .next ((s.setChannel ch (c.receiveAll s.biasWidth ch ops)).withTurns rest) := by
  induction ops generalizing s c with
  | nil =>
    have same : (s.setChannel ch c).withTurns rest = s := by
      rw [setChannel_eq_self s ch c hc, show rest = s.turns from ht.symm, withTurns_self]
    exact congrArg _ same.symm
  | cons op ops ih =>
    have first : step s
        = .next ((s.setChannel ch (c.receive s.biasWidth ch op)).withTurns (issueAll ch ops ++ rest)) :=
      step_issue_encode ht hc
    have others := ih (s := (s.setChannel ch _).withTurns _) rfl
      (setChannel_channel?_self s ch c (c.receive s.biasWidth ch op) hc)
    rw [List.length_cons, runSteps_succ first, others, setChannel_withTurns, setChannel_setChannel, withTurns_withTurns]
    rfl

/-- What a channel makes of a request does not depend on its trace, which it lengthens by the same symbols. -/
theorem receive_out (c : Channel) (op : SlotRequest) : ∃ more : List Symbol,
    ∀ out, Channel.receive width ch op { c with out := out } = { c.receive width ch op with out := out ++ more } := by
  rcases c with ⟨rb, _ | f, trace, _ | held⟩
  · cases op with
    | rst => exact ⟨[], fun out => by rw [List.append_nil]; rfl⟩
    | enc w =>
      cases hb : biasFits width (encodeStep w rb).2 with
      | true => exact ⟨[(encodeStep w rb).1], fun out => by simp [Channel.receive, slotEffect, encodeNext, hb]; rfl⟩
      | false => exact ⟨[], fun out => by simp [Channel.receive, slotEffect, encodeNext, hb]; rfl⟩
  all_goals exact ⟨[], fun out => by rw [List.append_nil]; rfl⟩

/-- R80, for a stream: only the trace it started with shows. -/
theorem receiveAll_out (ops : List SlotRequest) (c : Channel) : ∃ more : List Symbol,
    ∀ out, Channel.receiveAll width ch ops { c with out := out }
      = { c.receiveAll width ch ops with out := out ++ more } := by
  induction ops generalizing c with
  | nil => exact ⟨[], fun out => by rw [List.append_nil]; rfl⟩
  | cons op ops ih =>
    obtain ⟨first, hfirst⟩ := receive_out (width := width) (ch := ch) c op
    obtain ⟨more, hmore⟩ := ih (c.receive width ch op)
    refine ⟨first ++ more, fun out => ?_⟩
    rw [← List.append_assoc]
    exact (congrArg (Channel.receiveAll width ch ops) (hfirst out)).trans (hmore _)

/-- An RST makes of an unfaulted channel with an empty slot a newly created one, but for its trace (R79, R99). -/
theorem receive_rst_created (hf : c.fault = none) (hs : c.slot = none) :
    c.receive width ch .rst = { Channel.created with out := c.out } := by
  rw [receive_free hf hs, slotEffect, Channel.writeBias, hf, hs]
  rfl

/-- Each new bias of a stream of words fits the register. -/
def StreamFits (width : Option Nat) : Int → List Word → Prop
  | _, [] => True
  | b, w :: ws => biasFits width (encodeStep w b).2 = true ∧ StreamFits width (encodeStep w b).2 ws

theorem streamFits_unbounded (ws : List Word) (b : Int) : StreamFits none b ws := by
  induction ws generalizing b with
  | nil => trivial
  | cons w ws ih => exact ⟨rfl, ih _⟩

/-- R104's condition: a stream that cannot move the bias past the largest one the register holds fits. -/
theorem streamFits_of_short {W : Nat} {ws : List Word} {b : Int}
    (h : (b.natAbs : Int) + 10 * ws.length ≤ 2 ^ (W - 1) - 1) : StreamFits (some W) b ws := by
  induction ws generalizing b with
  | nil => trivial
  | cons w ws ih =>
    have change : -10 ≤ (encodeStep w b).2 - b ∧ (encodeStep w b).2 - b ≤ 10 := balance_change_bounds _
    rw [List.length_cons] at h
    exact ⟨biasFits_finite_iff.mpr ⟨by omega, by omega⟩, ih (by omega)⟩

/-- R33: a stream of words that fits leaves the bias after all of them, and their symbols in order. -/
theorem receiveAll_words {ws : List Word} (h : StreamFits width c.rb ws) (hf : c.fault = none) (hs : c.slot = none) :
    c.receiveAll width ch (ws.map SlotRequest.enc)
      = { c with rb := biasAfter c.rb ws, out := c.out ++ symbolsFrom c.rb ws } := by
  induction ws generalizing c with
  | nil => rw [symbolsFrom, List.append_nil]; rfl
  | cons w ws ih =>
    obtain ⟨hb, hws⟩ := h
    have first : c.receive width ch (.enc w)
        = (c.writeBias (encodeStep w c.rb).2).emitSymbol (encodeStep w c.rb).1 :=
      (receive_free hf hs).trans (encodeNext_fits hb)
    rw [symbolsFrom, List.append_cons]
    exact (congrArg (Channel.receiveAll width ch (ws.map SlotRequest.enc)) first).trans (ih hws hf hs)

end IssuedStreams

/-- Settles O24: an RST makes both channels newly created ones but for their traces, and no request looks at a trace. -/
theorem rstForgetsTheHistory : Obligations.RstForgetsTheHistory := by
  intro s₁ s₂ ch c₁ c₂ ops rest₁ rest₂ hwidth hc₁ hc₂ hf₁ hf₂ hs₁ hs₂ ht₁ ht₂
  obtain ⟨more, hmore⟩ := receiveAll_out (width := s₂.biasWidth) (ch := ch) ops Channel.created
  have reset : ∀ c : Channel, c.fault = none → c.slot = none →
      c.receiveAll s₂.biasWidth ch (.rst :: ops)
        = { Channel.created.receiveAll s₂.biasWidth ch ops with out := c.out ++ more } := by
    intro c hf hs
    rw [← hmore, ← receive_rst_created hf hs]
    rfl
  have run₁ := runSteps_issueAll ht₁ hc₁
  have run₂ := runSteps_issueAll ht₂ hc₂
  rw [hwidth, reset c₁ hf₁ hs₁] at run₁
  rw [reset c₂ hf₂ hs₂] at run₂
  exact ⟨_, _, _, _, more, run₁, run₂, setChannel_channel?_self s₁ ch c₁ _ hc₁, setChannel_channel?_self s₂ ch c₂ _ hc₂,
    rfl, rfl, rfl, rfl⟩

/-- Settles O53: the run is what the channel makes of the stream, which always fits an unbounded register. -/
theorem outFollowsTheIssueOrder : Obligations.OutFollowsTheIssueOrder := by
  intro ws s ch c rest hwidth hc hf hs ht
  have run := runSteps_issueAll ht hc
  rwa [List.length_map, hwidth, receiveAll_words (streamFits_unbounded ws c.rb) hf hs] at run

/-- Settles O54: the RST makes the channel a newly created one but for its trace, and from bias 0 the short stream fits. -/
theorem shortStreamsNeverOverflow : Obligations.ShortStreamsNeverOverflow := by
  intro ws s ch W c rest hwidth hshort hc hf hs ht
  have fits : StreamFits (some W) 0 ws := streamFits_of_short (by simpa using hshort)
  have run := runSteps_issueAll ht hc
  have all : c.receiveAll s.biasWidth ch (.rst :: ws.map SlotRequest.enc)
      = { c with rb := biasAfter 0 ws, out := c.out ++ symbolsFrom 0 ws } := by
    rw [hwidth]
    exact (congrArg (Channel.receiveAll (some W) ch (ws.map SlotRequest.enc)) (receive_free hf hs)).trans
      (receiveAll_words fits hf hs)
  rwa [List.length_cons, List.length_map, all] at run

/-- Settles O34: an operation replaces the channel it names by what that channel makes of the request, so two that name
different channels replace them in either order. -/
theorem differentInstancesCommute : Obligations.DifferentInstancesCommute := by
  intro s t i j hi hj hne h hlt
  obtain ⟨op, hop⟩ := exists_slotRequest hi
  obtain ⟨op', hop'⟩ := exists_slotRequest hj
  generalize i.channel = k at hop hne
  generalize j.channel = k' at hop' hne hlt
  subst hop hop'
  obtain ⟨c, hc, rfl⟩ := exec_next h
  obtain ⟨c', hc'⟩ := Option.isSome_iff_exists.mp ((channel?_isSome_iff s k').mpr hlt)
  refine ⟨_, _, exec_receive hc', exec_receive ((setChannel_channel?_other s k' k _ hne).trans hc), ?_⟩
  rw [exec_receive ((setChannel_channel?_other s k k' _ hne.symm).trans hc'), setChannel_comm s k k' _ _ hne]
  rfl

/-- Settles O33: an operation replaces one channel, in which it writes the mark alone or its own fields. -/
theorem frameOfEncRstAndDec : Obligations.FrameOfEncRstAndDec := by
  refine ⟨fun s t ch w h => ?enc, fun s t ch h => ?rst, fun s t symbol h => ?dec⟩
  case enc =>
    obtain ⟨hwidth, hdout, hmark, hturns, hlen, hothers, hself⟩ := exec_frame (op := .enc w) h
    refine ⟨hwidth, hdout, hmark, hturns, hlen, hothers, fun c d hc hd => ?_⟩
    obtain rfl := hself c d hc hd
    refine ⟨receive_slot, ?_⟩
    obtain ⟨f, hd⟩ | hd := receive_enc (width := s.biasWidth) (ch := ch) (c := c) w
    · exact .inl (by rw [hd])
    · exact .inr (by rw [hd])
  case rst =>
    obtain ⟨hwidth, hdout, hmark, hturns, hlen, hothers, hself⟩ := exec_frame (op := .rst) h
    refine ⟨hwidth, hdout, hmark, hturns, hlen, hothers, fun c d hc hd => ?_⟩
    obtain rfl := hself c d hc hd
    refine ⟨receive_slot, ?_⟩
    obtain ⟨f, hd⟩ | hd := receive_rst (width := s.biasWidth) (ch := ch) (c := c)
    · exact ⟨by rw [hd], .inl (by rw [hd])⟩
    · exact ⟨by rw [hd], .inr hd⟩
  case dec =>
    cases h
    exact ⟨rfl, rfl, rfl, rfl⟩

end Sys2Proof.Machine
end

section
/-! Proofs of the family other, the moves: what placing, serving and issuing do, which of them complete, which raise a
concurrent access; and the words and lines that name an operation. -/

namespace Sys2Proof.Machine

open Sys2Proof

section Moves

variable {s : State} {ch : Nat} {c : Channel} {op : SlotRequest} {rest : List Turn}

theorem step_withTurns {x : Turn} : step (s.withTurns (x :: rest)) = runTurn x (s.withTurns rest) := step_turn rfl

/-- The step of a placed ENC or RST: the request reaches its channel, to be left in the slot (R91). -/
theorem step_place (ht : s.turns = .place (encode (op.instr ch)) :: rest) :
    step s = onChannel (s.withTurns rest) ch op.requestWord (Channel.fillSlot (some op)) := by
  rw [step_turn ht]
  cases op with
  | enc w => simp [runTurn, placeRequest, SlotRequest.instr, occupySlot]
  | rst => simp [runTurn, placeRequest, SlotRequest.instr, occupySlot]

/-- A placed DEC is performed at once, for DEC has no slot (R87, log 10). -/
theorem step_place_dec {q : Request} {x : Symbol} (ht : s.turns = .place q :: rest) (hq : decode q = .ok (.dec x)) :
    step s = .next ((s.emitWord (decodeSymbol x)).withTurns rest) := by
  rw [step_turn ht]
  simp only [runTurn, placeRequest, hq]
  rfl

/-- A channel with an empty slot, or a faulted one, holds when it is served (R92, R98). -/
theorem serveSlot_holds (hc : s.channel? ch = some c) (h : c.slot = none ∨ c.fault ≠ none) : serveSlot ch s = .next s := by
  cases hf : c.fault with
  | some f => simp [serveSlot, hc, hf]
  | none =>
    have hs : c.slot = none := h.resolve_right (not_not.mpr hf)
    simp [serveSlot, hc, hf, hs]

theorem serveSlot_missing (h : s.channel? ch = none) : serveSlot ch s = .refused (.noSuchChannel ch) := by
  simp [serveSlot, h]

/-- After a faulting step the request is in the slot again (log 5). -/
theorem keepIfFaulted_faulted (hc : s.channel? ch = some c) (hf : c.fault ≠ none) :
    keepIfFaulted ch op s = s.setChannel ch (c.fillSlot (some op)) := by
  simp [keepIfFaulted, hc, Option.isSome_iff_ne_none.mpr hf]

/-- A channel that performs the ENC in its slot empties the slot (R91). -/
theorem serveSlot_enc_fits {w : Word} (hc : s.channel? ch = some c) (hf : c.fault = none) (hs : c.slot = some (.enc w))
    (hb : biasFits s.biasWidth (encodeStep w c.rb).2 = true) :
    serveSlot ch s = .next (s.setChannel ch
      (((c.fillSlot none).writeBias (encodeStep w c.rb).2).emitSymbol (encodeStep w c.rb).1)) := by
  have effect : slotEffect s.biasWidth ch (.enc w) (c.fillSlot none)
      = ((c.fillSlot none).writeBias (encodeStep w c.rb).2).emitSymbol (encodeStep w c.rb).1 :=
    encodeNext_fits (c := c.fillSlot none) hb
  rw [serveSlot_taken hc hf hs, effect]
  exact congrArg _ (keepIfFaulted_unfaulted (setChannel_channel?_self s ch c _ hc) hf)

section EmptySlot

variable (hc : s.channel? ch = some c) (hf : c.fault = none) (hs : c.slot = none)
include hc hf hs

/-- A request issued to a channel that is free is performed (R94). -/
theorem step_issue_free : step (s.withTurns (.issue (encode (op.instr ch)) :: rest))
    = .next ((s.setChannel ch (slotEffect s.biasWidth ch op c)).withTurns rest) := by
  rw [← receive_free hf hs]
  exact step_issue_encode (s := s.withTurns _) rfl hc

/-- A request placed in an empty slot waits there (R91). -/
theorem step_place_free : step (s.withTurns (.place (encode (op.instr ch)) :: rest))
    = .next ((s.setChannel ch (c.fillSlot (some op))).withTurns rest) :=
  (step_place rfl).trans (onChannel_free (s := s.withTurns rest) hc hf hs)

/-- A request taken from the slot it was placed in does what it does issued, and is in the slot again if that faulted. -/
theorem step_serve_placed : step ((s.setChannel ch (c.fillSlot (some op))).withTurns (.serve ch :: rest))
    = .next (keepIfFaulted ch op ((s.setChannel ch (slotEffect s.biasWidth ch op c)).withTurns rest)) := by
  have emptied : (c.fillSlot (some op)).fillSlot none = c := fillSlot_none_of_empty hs
  have filled := setChannel_channel?_self s ch c (c.fillSlot (some op)) hc
  have taken := serveSlot_taken (s := (s.setChannel ch (c.fillSlot (some op))).withTurns rest) filled hf rfl
  rw [emptied, setChannel_withTurns, setChannel_setChannel] at taken
  exact step_withTurns.trans taken

end EmptySlot

end Moves

section Observation

variable {s : State} {ch : Nat} {c d : Channel} {op : SlotRequest}

/-- Replacing a channel by one of the same view shows nothing (R107). -/
theorem setChannel_observe (hc : s.channel? ch = some c) (hv : d.view = c.view) :
    (s.setChannel ch d).observe = s.observe := by
  conv_rhs => rw [← setChannel_eq_self s ch c hc]
  simp [State.observe, List.map_set, hv]

/-- A request back in its slot shows nothing, and the stream is as it was. -/
theorem keepIfFaulted_observe :
    (keepIfFaulted ch op s).observe = s.observe ∧ (keepIfFaulted ch op s).turns = s.turns := by
  cases hc : s.channel? ch with
  | none => simp [keepIfFaulted, hc]
  | some c =>
    by_cases hf : c.fault = none
    · rw [keepIfFaulted_unfaulted hc hf]
      exact ⟨rfl, rfl⟩
    · rw [keepIfFaulted_faulted hc hf]
      exact ⟨setChannel_observe hc rfl, rfl⟩

end Observation

section Completion

variable {s : State} {ch : Nat}

/-- A move's answer: the next state, or the refusal of a channel that does not exist, which the move named (log 8). -/
def Completes (s : State) (named : Bool) (a : Answer) : Prop :=
  (∃ t, a = .next t) ∨ (named = false ∧ ∃ ch, s.channels.length ≤ ch ∧ a = .refused (.noSuchChannel ch))

theorem onChannel_completes (r : RequestWord) (p : Channel → Channel) :
    Completes s (decide (ch < s.channels.length)) (onChannel s ch r p) := by
  cases hc : s.channel? ch with
  | none =>
    have hlen := (channel?_eq_none_iff s ch).mp hc
    exact .inr ⟨decide_eq_false (Nat.not_lt.mpr hlen), ch, hlen, onChannel_missing hc⟩
  | some c =>
    unfold onChannel
    rw [hc]
    dsimp only
    split <;> exact .inl ⟨_, rfl⟩

theorem exec_completes (i : Instr) : Completes s (i.wf s.channels.length) (exec i s) := by
  cases i with
  | enc ch w => exact onChannel_completes _ _
  | rst ch => exact onChannel_completes _ _
  | dec x => exact .inl ⟨_, rfl⟩

theorem serveSlot_completes : Completes s (decide (ch < s.channels.length)) (serveSlot ch s) := by
  cases hc : s.channel? ch with
  | none =>
    have hlen := (channel?_eq_none_iff s ch).mp hc
    exact .inr ⟨decide_eq_false (Nat.not_lt.mpr hlen), ch, hlen, serveSlot_missing hc⟩
  | some c =>
    by_cases hf : c.fault = none
    · cases hs : c.slot with
      | none => exact .inl ⟨_, serveSlot_holds hc (.inl hs)⟩
      | some op => exact .inl ⟨_, serveSlot_taken hc hf hs⟩
    · exact .inl ⟨_, serveSlot_holds hc (.inr hf)⟩

theorem runTurn_completes (x : Turn) : Completes s (x.wf s.channels.length) (runTurn x s) := by
  cases x with
  | serve ch => exact serveSlot_completes
  | issue q =>
    simp only [runTurn, issueRequest, Turn.wf]
    cases decode q with
    | ok i => exact exec_completes i
    | error r => exact .inl ⟨_, rfl⟩
  | place q =>
    simp only [runTurn, placeRequest, Turn.wf]
    cases decode q with
    | error r => exact .inl ⟨_, rfl⟩
    | ok i =>
      cases i with
      | enc ch w => exact onChannel_completes _ _
      | rst ch => exact onChannel_completes _ _
      | dec x => exact .inl ⟨_, rfl⟩

/-- A step answers the next state, or refuses a channel that does not exist (R88, R106). -/
theorem step_completes (s : State) :
    (∃ t, step s = .next t) ∨ ∃ ch, s.channels.length ≤ ch ∧ step s = .refused (.noSuchChannel ch) := by
  cases ht : s.turns with
  | nil => exact .inl ⟨s, step_idle ht⟩
  | cons x rest =>
    rw [step_turn ht]
    exact (runTurn_completes (s := s.withTurns rest) x).imp_right And.right

end Completion

section ConcurrentAccess

variable {s t : State} {ch k : Nat} {c d : Channel} {held arriving : RequestWord}

/-- A performed operation raises no concurrent access. -/
theorem slotEffect_fault_ne {width : Option Nat} (op : SlotRequest) (hf : c.fault = none) :
    (slotEffect width ch op c).fault ≠ some (.concurrentAccess held arriving k) := by
  cases op with
  | rst => simp [slotEffect, hf]
  | enc w =>
    cases hb : biasFits width (encodeStep w c.rb).2 with
    | true => simp [slotEffect, encodeNext_fits hb, hf]
    | false => simp [slotEffect, encodeNext_overflows hb]

section NewMark

variable (hc : s.channel? ch = some c) (hd : t.channel? ch = some d) (hf : c.fault = none)
  (hmark : d.fault = some (.concurrentAccess held arriving k))
include hc hd hf hmark

/-- Only a change of the channels sets a mark. -/
theorem channels_ne_of_new_mark : t.channels ≠ s.channels := by
  intro h
  rw [channel?_congr h, hc] at hd
  rw [← Option.some.inj hd, hf] at hmark
  cases hmark

/-- A request that newly raises a concurrent access at a channel was addressed to it and found its slot occupied (R91). -/
theorem onChannel_new_mark {j : Nat} {r : RequestWord} {p : Channel → Channel} (h : onChannel s j r p = .next t)
    (hp : ∀ e : Channel, e.fault = none → (p e).fault ≠ some (.concurrentAccess held arriving k)) :
    j = ch ∧ k = ch ∧ arriving = r ∧ ∃ first, c.slot = some first ∧ held = first.requestWord := by
  have hne : d ≠ c := by
    rintro rfl
    simp [hf] at hmark
  obtain ⟨e, he, ⟨-, rfl⟩ | ⟨-, first, hs, rfl⟩ | ⟨hfree, -, rfl⟩⟩ := onChannel_next h
  · exact absurd (Option.some.inj (hd.symm.trans hc)) hne
  · obtain ⟨rfl, rfl, rfl⟩ := setChannel_changed he hc hd hne
    cases hmark
    exact ⟨rfl, rfl, rfl, first, hs, rfl⟩
  · obtain ⟨-, -, rfl⟩ := setChannel_changed he hc hd hne
    exact absurd hmark (hp e hfree)

/-- Serving raises no concurrent access. -/
theorem serveSlot_ne_of_new_mark (j : Nat) : serveSlot j s ≠ .next t := by
  intro h
  have hne : d ≠ c := by
    rintro rfl
    simp [hf] at hmark
  obtain ⟨e, he, ⟨-, rfl⟩ | ⟨hfree, w, -, ⟨-, rfl⟩ | ⟨-, rfl⟩⟩ | ⟨hfree, -, rfl⟩⟩ := serveSlot_cases h
  · exact hne (Option.some.inj (hd.symm.trans hc))
  all_goals
    obtain ⟨-, -, rfl⟩ := setChannel_changed he hc hd hne
    simp [hfree] at hmark

/-- R91: a move that newly raises a concurrent access issues or places an ENC or an RST to that channel, whose slot holds the
first request that the mark records. -/
theorem runTurn_new_mark {x : Turn} (h : runTurn x s = .next t) :
    ∃ (first second : SlotRequest) (q : Request), c.slot = some first ∧ held = first.requestWord
      ∧ arriving = second.requestWord ∧ k = ch ∧ (x = .issue q ∨ x = .place q) ∧ decode q = .ok (second.instr ch) := by
  have kept : t.channels ≠ s.channels := channels_ne_of_new_mark hc hd hf hmark
  cases x with
  | serve j => exact absurd h (serveSlot_ne_of_new_mark hc hd hf hmark j)
  | issue q =>
    obtain ⟨i, hq, h⟩ | ⟨r, -, rfl⟩ := issueRequest_cases h
    · have hi : ∀ x, i ≠ .dec x := by
        rintro x rfl
        cases h
        exact kept rfl
      obtain ⟨op, hop⟩ := exists_slotRequest hi
      rw [hop] at h hq
      rw [exec_slotRequest] at h
      obtain ⟨hj, hk, harr, first, hs, hheld⟩ :=
        onChannel_new_mark hc hd hf hmark h fun e he => slotEffect_fault_ne op he
      exact ⟨first, op, q, hs, hheld, harr, hk, .inl rfl, hj ▸ hq⟩
    · exact absurd rfl kept
  | place q =>
    obtain ⟨j, op, hq, h⟩ | ⟨x, -, rfl⟩ | ⟨r, -, rfl⟩ := placeRequest_cases h
    · obtain ⟨rfl, hk, harr, first, hs, hheld⟩ :=
        onChannel_new_mark hc hd hf hmark h fun e he => by simp [he]
      exact ⟨first, op, q, hs, hheld, harr, hk, .inr rfl, hq⟩
    · exact absurd rfl kept
    · exact absurd rfl kept

theorem step_new_mark (h : step s = .next t) :
    ∃ (first second : SlotRequest) (q : Request) (rest : List Turn), c.slot = some first ∧ held = first.requestWord
      ∧ arriving = second.requestWord ∧ k = ch ∧ (s.turns = .issue q :: rest ∨ s.turns = .place q :: rest)
      ∧ decode q = .ok (second.instr ch) := by
  obtain ⟨-, rfl⟩ | ⟨x, rest, ht, h⟩ := step_cases h
  · exact absurd rfl (channels_ne_of_new_mark hc hd hf hmark)
  · obtain ⟨first, second, q, hs, hheld, harr, hk, hx, hq⟩ :=
      runTurn_new_mark (s := s.withTurns rest) hc hd hf hmark h
    exact ⟨first, second, q, rest, hs, hheld, harr, hk, by simpa [ht] using hx, hq⟩

end NewMark

/-- An issued request leaves every slot as it is. -/
theorem issueRequest_slot {q : Request} (h : issueRequest q s = .next t) (hc : s.channel? ch = some c)
    (hd : t.channel? ch = some d) : d.slot = c.slot := by
  have same : ∀ {u : State}, u.channels = s.channels → u.channel? ch = some d → d.slot = c.slot := by
    intro u hu hd
    rw [channel?_congr hu, hc] at hd
    rw [Option.some.inj hd]
  obtain ⟨i, -, h⟩ | ⟨r, -, rfl⟩ := issueRequest_cases h
  · by_cases hi : ∀ x, i ≠ .dec x
    · obtain ⟨op, hop⟩ := exists_slotRequest hi
      rw [hop] at h
      obtain ⟨-, -, -, -, -, hothers, hself⟩ := exec_frame h
      by_cases hch : ch = i.channel
      · rw [hself c d (hch ▸ hc) (hch ▸ hd), receive_slot]
      · rw [hothers ch hch, hc] at hd
        rw [Option.some.inj hd]
    · obtain ⟨x, rfl⟩ := not_forall_not.mp hi
      cases h
      exact same rfl hd
  · exact same rfl hd

end ConcurrentAccess

/-- Settles O37: a request reaches its channel and is placed, faults or is passed over; a mark is newly set only in the
second way, and an issued request fills no slot. -/
theorem occupiedSlotRaisesConcurrentAccess : Obligations.OccupiedSlotRaisesConcurrentAccess := by
  refine ⟨fun s ch c held op hc hf hs => ⟨exec_occupied hc hf hs, fun rest => ?placedOccupied⟩,
    fun s ch c op rest hc hf hs => step_place_free hc hf hs, fun s ch c w rest hc hf hs hb => ?servedEnc,
    fun s ch c rest hc hf hs => ?servedRst, fun s symbol => exec_dec symbol,
    fun s q symbol rest hq => step_place_dec (s := s.withTurns _) rfl hq,
    fun s t ch c d held arriving k h hc hd hf hmark => step_new_mark hc hd hf hmark h, ?oneHost⟩
  case placedOccupied =>
    exact (step_place rfl).trans (onChannel_occupied (s := s.withTurns rest) hc hf hs)
  case servedEnc => exact step_withTurns.trans (serveSlot_enc_fits (s := s.withTurns rest) hc hf hs hb)
  case servedRst => exact step_withTurns.trans (serveSlot_rst (s := s.withTurns rest) hc hf hs)
  case oneHost =>
    intro s t hslots hturns h
    obtain ⟨effect, -, hrest⟩ := step_effect h
    have slot : ∀ ch c, s.channel? ch = some c → c.slot = none := fun ch c hc => hslots c (List.mem_of_getElem? hc)
    refine ⟨fun d hd => ?_, fun x hx => hturns x (List.mem_of_mem_tail (hrest ▸ hx)), ?_⟩
    · obtain ⟨ch, hd⟩ := List.mem_iff_getElem?.mp hd
      obtain ⟨c, hc⟩ := exists_channel_before h hd
      obtain ⟨-, rfl⟩ | ⟨x, rest, ht, h⟩ := step_cases h
      · exact slot ch d hd
      · obtain ⟨q, rfl⟩ := hturns x (ht ▸ List.mem_cons_self)
        rw [issueRequest_slot (s := s.withTurns rest) h hc hd]
        exact slot ch c hc
    · intro ch c d held arriving k hc hd hmark
      cases hf : c.fault with
      | some f => rw [← hf, Option.some.inj ((effect.keeps_faulted hc hf).symm.trans hd)]
      | none =>
        obtain ⟨first, -, -, -, hs, -⟩ := step_new_mark hc hd hf hmark h
        exact absurd ((slot ch c hc).symm.trans hs) nofun

/-- Settles O48: an issued request is its operation, and a served one is its operation on the emptied slot, filled again
where that faulted. -/
theorem stepRunsTheDecodedRequest : Obligations.StepRunsTheDecodedRequest := by
  refine ⟨fun s q i rest ht hq => step_issue ht hq, fun s ch c op rest ht hc hf hs => ?served⟩
  have hc' : (s.withTurns rest).channel? ch = some c := hc
  have hself := setChannel_channel?_self (s.withTurns rest) ch c (slotEffect s.biasWidth ch op (c.fillSlot none)) hc'
  have run := (step_turn ht).trans (serveSlot_taken hc' hf hs)
  refine ⟨_, _, exec_taken op hc' hf, hself, fun hfree => ?_, fun hfault => ?_⟩
  · exact run.trans (congrArg _ (keepIfFaulted_unfaulted hself hfree))
  · exact run.trans (congrArg _ (keepIfFaulted_faulted hself hfault))

/-- Settles O49: the request put in the slot is taken out of it again, so the two runs differ in that slot alone, and only
after a fault. -/
theorem placeThenServeIsIssue : Obligations.PlaceThenServeIsIssue := by
  intro s ch c op rest hc hf hs
  have place_serve : runSteps 2 (s.withTurns (.place (encode (op.instr ch)) :: .serve ch :: rest))
      = .next (keepIfFaulted ch op ((s.setChannel ch (slotEffect s.biasWidth ch op c)).withTurns rest)) := by
    rw [runSteps_succ (step_place_free hc hf hs), runSteps_succ (step_serve_placed hc hf hs)]
    rfl
  have hself : ((s.setChannel ch (slotEffect s.biasWidth ch op c)).withTurns rest).channel? ch = some _ :=
    setChannel_channel?_self s ch c _ hc
  refine ⟨_, _, runSteps_succ (step_issue_free hc hf hs), place_serve, ?_, ?_, fun hfree => ?_⟩
  · rw [keepIfFaulted_observe.1]
  · rw [keepIfFaulted_observe.2]
  · exact (keepIfFaulted_unfaulted hself (hfree _ hself)).symm

/-- Settles O50: there is no move to make, or the served channel takes no step. -/
theorem idleMachineHoldsItsState : Obligations.IdleMachineHoldsItsState :=
  ⟨fun _ => step_idle, fun s _ _ rest ht hc h => (step_turn ht).trans (serveSlot_holds (s := s.withTurns rest) hc h)⟩

/-- Settles O51: each move answers the next state, or refuses a channel that does not exist. -/
theorem everyStepCompletes : Obligations.EveryStepCompletes := by
  refine ⟨fun s x rest ht hwf => ?wellFormed, fun s f h => ?fault, fun s r h => ?refusal⟩
  case wellFormed =>
    rw [step_turn ht]
    refine (runTurn_completes (s := s.withTurns rest) x).resolve_right fun ⟨hmissing, _⟩ => ?_
    exact absurd (hwf.symm.trans hmissing) nofun
  case fault =>
    obtain ⟨t, ht⟩ | ⟨ch, -, hr⟩ := step_completes s
    · exact absurd (h.symm.trans ht) nofun
    · exact absurd (h.symm.trans hr) nofun
  case refusal =>
    obtain ⟨t, ht⟩ | ⟨ch, hlen, hr⟩ := step_completes s
    · exact absurd (h.symm.trans ht) nofun
    · exact ⟨ch, by injection h.symm.trans hr, hlen⟩

/-- Settles O52: ENC, RST and serving look the channel up before anything else. -/
theorem missingInstanceIsRefused : Obligations.MissingInstanceIsRefused := by
  intro s ch hlen
  have hc := (channel?_eq_none_iff s ch).mpr hlen
  exact ⟨fun w => exec_missing (op := .enc w) hc, exec_missing (op := .rst) hc,
    fun rest ht => (step_turn ht).trans (serveSlot_missing (s := s.withTurns rest) hc)⟩

/-- Settles O58: each of the first words is of a row of the table, and the last three are reserved, one in each of R45's
ways. -/
theorem wordsOfTheTableDecode : Obligations.WordsOfTheTableDecode :=
  ⟨decode_enc_word 0 0x00#8, decode_enc_word 2 0xFF#8, decode_dec_word 0x000#10 0, decode_dec_word 0x354#10 1,
    decode_encode (.rst 1), decode_of_isReserved (by decide), decode_of_isReserved (by decide),
    decode_of_isReserved (by decide)⟩

/-- Settles O59: the operand's number is compared with the operand's largest, and the three lines are read. -/
theorem assemblerChecksTheOperandRange : Obligations.AssemblerChecksTheOperandRange := by
  refine ⟨fun ch n operand h => ⟨fun hn => ?encInRange, fun hn => ?encOutOfRange, fun hn k => ?decInRange,
    fun hn => ?decOutOfRange⟩, fun ch => rfl, by decide, by decide, by decide⟩
  case encInRange => simp [assembleWords, h, hn]
  case encOutOfRange => simp [assembleWords, h, Nat.not_le.mpr hn]
  case decInRange => simp [assembleWords, h, hn]
  case decOutOfRange => simp [assembleWords, h, Nat.not_le.mpr hn]

end Sys2Proof.Machine
end
